-- ==== Sys2Proof/Word.lean ====
section
/-! DEFINITION. The word types of the block (spec 00_scope.md R8, R11): bytes, 16-bit words, 12-bit
addresses, register indexes and small counts. -/

namespace Sys2Proof

/-- An 8-bit value: a general register, a timer or a memory byte (R11). -/
abbrev Byte := BitVec 8

/-- A 16-bit value: I, PC, a stack entry or an instruction word (R11). -/
abbrev Word := BitVec 16

/-- The 12-bit address field `nnn` of an instruction (R59). -/
abbrev Addr12 := BitVec 12

/-- The index of a general register, V0 to VF (R19). -/
abbrev Reg := Fin 16

/-- The 4-bit row count `n` of Dxyn (R61). -/
abbrev RowCount := Fin 16

/-- VF, the general register that is also the flag (R20). -/
abbrev VF : Reg := 15

end Sys2Proof
end

