-- ==== Sys2Proof/Config.lean ====
section
/-! DEFINITION. What an implementation of the block fixes: the parameters of spec 00_scope.md R8 (a model takes them as
arguments), the spec's choice for each, and the one free value, the random byte of Cxnn (42_alu.md R107). -/

namespace Sys2Proof

/-- The register that 8xy6 and 8xyE shift: the parameter SHIFT_SOURCE (42_alu.md R104, D14). -/
inductive ShiftSource where
  | vx
  | vy
  deriving DecidableEq, Repr

/-- The implementation parameters of R8. Every claim holds for each value of them unless it says otherwise. -/
structure Config where
  /-- GLYPH_BASE: the address of the glyph table (D3). -/
  glyphBase : Nat
  /-- GLYPH_BYTES: the 80 bytes of the glyph table (D4). -/
  glyphBytes : List Byte
  /-- SHIFT_SOURCE (D14). -/
  shiftSource : ShiftSource
  /-- LOGIC_CLEARS_VF (D15). -/
  logicClearsVF : Bool
  deriving DecidableEq, Repr

/-- MEM_SIZE: addresses 0x000 to 0xFFF (R8). -/
abbrev memSize : Nat := 0x1000

/-- PROGRAM_BASE: where the loader puts the program image (R8). -/
abbrev programBase : Nat := 0x200

/-- MAX_PROGRAM: the longest program image, 3584 bytes (R8). -/
abbrev maxProgram : Nat := 0xE00

/-- The length of the glyph table: 16 glyphs of 5 bytes (R8, 20_memory.md R44). -/
abbrev glyphTableSize : Nat := 80

/-- Glyphs 0 to 3 of 20_memory.md R45. -/
def Config.font0to3 : List Byte :=
  [0xF0, 0x90, 0x90, 0x90, 0xF0, 0x20, 0x60, 0x20, 0x20, 0x70,
   0xF0, 0x10, 0xF0, 0x80, 0xF0, 0xF0, 0x10, 0xF0, 0x10, 0xF0]

/-- Glyphs 4 to 7 of 20_memory.md R45. -/
def Config.font4to7 : List Byte :=
  [0x90, 0x90, 0xF0, 0x10, 0x10, 0xF0, 0x80, 0xF0, 0x10, 0xF0,
   0xF0, 0x80, 0xF0, 0x90, 0xF0, 0xF0, 0x10, 0x20, 0x40, 0x40]

/-- Glyphs 8 to B of 20_memory.md R45. -/
def Config.font8toB : List Byte :=
  [0xF0, 0x90, 0xF0, 0x90, 0xF0, 0xF0, 0x90, 0xF0, 0x10, 0xF0,
   0xF0, 0x90, 0xF0, 0x90, 0x90, 0xE0, 0x90, 0xE0, 0x90, 0xE0]

/-- Glyphs C to F of 20_memory.md R45. -/
def Config.fontCtoF : List Byte :=
  [0xF0, 0x80, 0x80, 0x80, 0xF0, 0xE0, 0x90, 0x90, 0x90, 0xE0,
   0xF0, 0x80, 0xF0, 0x80, 0xF0, 0xF0, 0x80, 0xF0, 0x80, 0x80]

/-- The glyph table of 20_memory.md R45: the spec's choice for GLYPH_BYTES (D4). -/
def Config.font : List Byte :=
  Config.font0to3 ++ Config.font4to7 ++ Config.font8toB ++ Config.fontCtoF

/-- The spec's choice for every parameter (R8; D3, D4, D14, D15). -/
def Config.spec : Config where
  glyphBase := 0x000
  glyphBytes := Config.font
  shiftSource := .vx
  logicClearsVF := false

/-- `RandomByte()` (R14, 42_alu.md R107): the byte of the `n`-th draw. A free value: it has no body, so nothing can be
proved of it, and a claim about Cxnn holds for every draw (log entry 3). -/
opaque Config.randomByte (n : Nat) : Byte

end Sys2Proof
end

