-- ==== Sys2Proof/Syntax.lean ====
section
/-! DEFINITION. The 34 instructions of the block, one constructor for each row of spec/opcode_table.json (30_encoding.md
R63), with the fields of R59 as operands. -/

namespace Sys2Proof

/-- An instruction. The types of the operands are the widths of the fields (R59, R61): `x` and `y` name registers, `nn`
is an 8-bit immediate, `nnn` a 12-bit address, `n` a row count. -/
inductive Instr where
  /-- 00E0, clear the display (R117). -/
  | cls
  /-- 00EE, return from subroutine (R86). -/
  | ret
  /-- 1nnn, jump (R87). -/
  | jp (nnn : Addr12)
  /-- 2nnn, call (R88). -/
  | call (nnn : Addr12)
  /-- 3xnn, skip if Vx equals nn (R89). -/
  | seImm (x : Reg) (nn : Byte)
  /-- 4xnn, skip if Vx differs from nn (R90). -/
  | sneImm (x : Reg) (nn : Byte)
  /-- 5xy0, skip if Vx equals Vy (R91). -/
  | seReg (x y : Reg)
  /-- 6xnn, set Vx (R96). -/
  | ldImm (x : Reg) (nn : Byte)
  /-- 7xnn, add to Vx (R97). -/
  | addImm (x : Reg) (nn : Byte)
  /-- 8xy0, assign Vy to Vx (R98). -/
  | ldReg (x y : Reg)
  /-- 8xy1, bitwise OR (R99). -/
  | orReg (x y : Reg)
  /-- 8xy2, bitwise AND (R100). -/
  | andReg (x y : Reg)
  /-- 8xy3, bitwise exclusive OR (R101). -/
  | xorReg (x y : Reg)
  /-- 8xy4, add with carry flag (R102). -/
  | addReg (x y : Reg)
  /-- 8xy5, Vx minus Vy with no-borrow flag (R103). -/
  | subReg (x y : Reg)
  /-- 8xy6, shift right (R104). -/
  | shr (x y : Reg)
  /-- 8xy7, Vy minus Vx with no-borrow flag (R105). -/
  | subnReg (x y : Reg)
  /-- 8xyE, shift left (R106). -/
  | shl (x y : Reg)
  /-- 9xy0, skip if Vx differs from Vy (R92). -/
  | sneReg (x y : Reg)
  /-- Annn, set I (R110). -/
  | ldI (nnn : Addr12)
  /-- Bnnn, jump to nnn plus V0 (R93). -/
  | jpV0 (nnn : Addr12)
  /-- Cxnn, random byte masked with nn (R107). -/
  | rnd (x : Reg) (nn : Byte)
  /-- Dxyn, draw a sprite (R118). -/
  | drw (x y : Reg) (n : RowCount)
  /-- Ex9E, skip if key Vx is down (R123). -/
  | skp (x : Reg)
  /-- ExA1, skip if key Vx is up (R124). -/
  | sknp (x : Reg)
  /-- Fx07, read the delay timer (R126). -/
  | ldVxDt (x : Reg)
  /-- Fx0A, wait for a key (R125). -/
  | ldVxK (x : Reg)
  /-- Fx15, set the delay timer (R127). -/
  | ldDtVx (x : Reg)
  /-- Fx18, set the sound timer (R128). -/
  | ldStVx (x : Reg)
  /-- Fx1E, add Vx to I (R111). -/
  | addIVx (x : Reg)
  /-- Fx29, point I at the glyph of Vx (R112). -/
  | ldFVx (x : Reg)
  /-- Fx33, store the decimal digits of Vx (R113). -/
  | ldBVx (x : Reg)
  /-- Fx55, store V0 to Vx (R114). -/
  | ldMemVx (x : Reg)
  /-- Fx65, load V0 to Vx (R115). -/
  | ldVxMem (x : Reg)
  deriving DecidableEq, Repr

/-- The mnemonic of an instruction's row in spec/opcode_table.json (the `id` column of R63). -/
def Instr.mnemonic : Instr → String
  | .cls => "CLS"
  | .ret => "RET"
  | .jp _ => "JP"
  | .call _ => "CALL"
  | .seImm _ _ => "SE_IMM"
  | .sneImm _ _ => "SNE_IMM"
  | .seReg _ _ => "SE_REG"
  | .ldImm _ _ => "LD_IMM"
  | .addImm _ _ => "ADD_IMM"
  | .ldReg _ _ => "LD_REG"
  | .orReg _ _ => "OR"
  | .andReg _ _ => "AND"
  | .xorReg _ _ => "XOR"
  | .addReg _ _ => "ADD_REG"
  | .subReg _ _ => "SUB"
  | .shr _ _ => "SHR"
  | .subnReg _ _ => "SUBN"
  | .shl _ _ => "SHL"
  | .sneReg _ _ => "SNE_REG"
  | .ldI _ => "LD_I"
  | .jpV0 _ => "JP_V0"
  | .rnd _ _ => "RND"
  | .drw _ _ _ => "DRW"
  | .skp _ => "SKP"
  | .sknp _ => "SKNP"
  | .ldVxDt _ => "LD_VX_DT"
  | .ldVxK _ => "LD_VX_K"
  | .ldDtVx _ => "LD_DT_VX"
  | .ldStVx _ => "LD_ST_VX"
  | .addIVx _ => "ADD_I_VX"
  | .ldFVx _ => "LD_F_VX"
  | .ldBVx _ => "LD_B_VX"
  | .ldMemVx _ => "LD_MEM_VX"
  | .ldVxMem _ => "LD_VX_MEM"

/-- The assembler form of an instruction (R69): notation only, no rule of behaviour depends on it. -/
def Instr.assembly : Instr → String
  | .cls => "CLS"
  | .ret => "RET"
  | .jp _ => "JP addr"
  | .call _ => "CALL addr"
  | .seImm _ _ => "SE Vx, byte"
  | .sneImm _ _ => "SNE Vx, byte"
  | .seReg _ _ => "SE Vx, Vy"
  | .ldImm _ _ => "LD Vx, byte"
  | .addImm _ _ => "ADD Vx, byte"
  | .ldReg _ _ => "LD Vx, Vy"
  | .orReg _ _ => "OR Vx, Vy"
  | .andReg _ _ => "AND Vx, Vy"
  | .xorReg _ _ => "XOR Vx, Vy"
  | .addReg _ _ => "ADD Vx, Vy"
  | .subReg _ _ => "SUB Vx, Vy"
  | .shr _ _ => "SHR Vx, Vy"
  | .subnReg _ _ => "SUBN Vx, Vy"
  | .shl _ _ => "SHL Vx, Vy"
  | .sneReg _ _ => "SNE Vx, Vy"
  | .ldI _ => "LD I, addr"
  | .jpV0 _ => "JP V0, addr"
  | .rnd _ _ => "RND Vx, byte"
  | .drw _ _ _ => "DRW Vx, Vy, nibble"
  | .skp _ => "SKP Vx"
  | .sknp _ => "SKNP Vx"
  | .ldVxDt _ => "LD Vx, DT"
  | .ldVxK _ => "LD Vx, K"
  | .ldDtVx _ => "LD DT, Vx"
  | .ldStVx _ => "LD ST, Vx"
  | .addIVx _ => "ADD I, Vx"
  | .ldFVx _ => "LD F, Vx"
  | .ldBVx _ => "LD B, Vx"
  | .ldMemVx _ => "LD [I], Vx"
  | .ldVxMem _ => "LD Vx, [I]"

end Sys2Proof
end

