-- ==== Sys2Proof/WellFormed.lean ====
section
/-! DEFINITION. Well-formedness of what comes from outside the machine. The operands of `Instr` have the widths of their
fields as types (30_encoding.md R59, R61), so an ill-formed instruction cannot be written, and every term of `Instr` is
well formed; the checks below are on the inputs that plain data leaves open: the implementation parameters (00_scope.md
R8, R9), the key codes (60_exceptions.md R140) and the program image (70_reset_and_hazards.md R151). -/

namespace Sys2Proof

/-- The parameters of an implementation are legal (00_scope.md R9, 20_memory.md R44): the glyph table lies inside the
reserved region and holds 16 glyphs of 5 bytes. -/
abbrev Config.WellFormed (c : Config) : Prop :=
  c.glyphBase + glyphTableSize ≤ programBase ∧ c.glyphBytes.length = glyphTableSize

/-- A legal key code of setKeyDown and setKeyUp (60_exceptions.md R140). -/
abbrev KeyCodeWellFormed (code : Nat) : Prop := code ≤ 0xF

/-- A program image that fits between 0x200 and the end of memory (70_reset_and_hazards.md R151). -/
abbrev ImageWellFormed (image : List Byte) : Prop := image.length ≤ maxProgram

end Sys2Proof
end

