-- ==== Sys2Proof/Decode.lean ====
section
/-! DEFINITION. Decoding and encoding of the instruction word (spec 30_encoding.md). `decode` is the pseudocode of R64;
`encode` is written from the formats of R60; `opcodeTable` is the opcode map of R63. -/

namespace Sys2Proof

/-- Why a decode gives no instruction. -/
inductive DecodeError where
  /-- The word matches no row of R63 (R65). -/
  | unknownOpcode (op : Word)
  /-- Fewer than two bytes were given: no instruction word (R58). -/
  | truncated
  deriving DecidableEq, Repr

/-- The field `op[hi:lo]` as a number (R10). -/
def bitField (op : Word) (hi lo : Nat) : Nat := op.toNat / 2 ^ lo % 2 ^ (hi + 1 - lo)

/-- `family = op[15:12]` (R59). -/
def familyOf (op : Word) : Nat := bitField op 15 12

/-- `x = op[11:8]` (R59). -/
def xOf (op : Word) : Reg := ⟨bitField op 11 8, Nat.mod_lt _ (by decide)⟩

/-- `y = op[7:4]` (R59). -/
def yOf (op : Word) : Reg := ⟨bitField op 7 4, Nat.mod_lt _ (by decide)⟩

/-- `n = op[3:0]` (R59). -/
def nOf (op : Word) : RowCount := ⟨bitField op 3 0, Nat.mod_lt _ (by decide)⟩

/-- `nn = op[7:0]` (R59). -/
def nnOf (op : Word) : Byte := BitVec.ofNat 8 (bitField op 7 0)

/-- `nnn = op[11:0]` (R59). -/
def nnnOf (op : Word) : Addr12 := BitVec.ofNat 12 (bitField op 11 0)

/-- The words of family 0 (R64): only 00E0 and 00EE. -/
def decodeFamily0 (op : Word) : Except DecodeError Instr :=
  if op = 0x00E0 then .ok .cls
  else if op = 0x00EE then .ok .ret
  else .error (.unknownOpcode op)

/-- The words of family 8 (R64), told apart by `n`. -/
def decodeFamily8 (op : Word) : Except DecodeError Instr :=
  match bitField op 3 0 with
  | 0x0 => .ok (.ldReg (xOf op) (yOf op))
  | 0x1 => .ok (.orReg (xOf op) (yOf op))
  | 0x2 => .ok (.andReg (xOf op) (yOf op))
  | 0x3 => .ok (.xorReg (xOf op) (yOf op))
  | 0x4 => .ok (.addReg (xOf op) (yOf op))
  | 0x5 => .ok (.subReg (xOf op) (yOf op))
  | 0x6 => .ok (.shr (xOf op) (yOf op))
  | 0x7 => .ok (.subnReg (xOf op) (yOf op))
  | 0xE => .ok (.shl (xOf op) (yOf op))
  | _ => .error (.unknownOpcode op)

/-- The words of family E (R64), told apart by `nn`. -/
def decodeFamilyE (op : Word) : Except DecodeError Instr :=
  match bitField op 7 0 with
  | 0x9E => .ok (.skp (xOf op))
  | 0xA1 => .ok (.sknp (xOf op))
  | _ => .error (.unknownOpcode op)

/-- The words of family F (R64), told apart by `nn`. -/
def decodeFamilyF (op : Word) : Except DecodeError Instr :=
  match bitField op 7 0 with
  | 0x07 => .ok (.ldVxDt (xOf op))
  | 0x0A => .ok (.ldVxK (xOf op))
  | 0x15 => .ok (.ldDtVx (xOf op))
  | 0x18 => .ok (.ldStVx (xOf op))
  | 0x1E => .ok (.addIVx (xOf op))
  | 0x29 => .ok (.ldFVx (xOf op))
  | 0x33 => .ok (.ldBVx (xOf op))
  | 0x55 => .ok (.ldMemVx (xOf op))
  | 0x65 => .ok (.ldVxMem (xOf op))
  | _ => .error (.unknownOpcode op)

/-- Decode an instruction word: the pseudocode of R64, total on all 65536 words. -/
def decode (op : Word) : Except DecodeError Instr :=
  match familyOf op with
  | 0x0 => decodeFamily0 op
  | 0x1 => .ok (.jp (nnnOf op))
  | 0x2 => .ok (.call (nnnOf op))
  | 0x3 => .ok (.seImm (xOf op) (nnOf op))
  | 0x4 => .ok (.sneImm (xOf op) (nnOf op))
  | 0x5 => if bitField op 3 0 = 0 then .ok (.seReg (xOf op) (yOf op)) else .error (.unknownOpcode op)
  | 0x6 => .ok (.ldImm (xOf op) (nnOf op))
  | 0x7 => .ok (.addImm (xOf op) (nnOf op))
  | 0x8 => decodeFamily8 op
  | 0x9 => if bitField op 3 0 = 0 then .ok (.sneReg (xOf op) (yOf op)) else .error (.unknownOpcode op)
  | 0xA => .ok (.ldI (nnnOf op))
  | 0xB => .ok (.jpV0 (nnnOf op))
  | 0xC => .ok (.rnd (xOf op) (nnOf op))
  | 0xD => .ok (.drw (xOf op) (yOf op) (nOf op))
  | 0xE => decodeFamilyE op
  | 0xF => decodeFamilyF op
  | _ => .error (.unknownOpcode op)

/-- The word of two bytes, most significant byte first: `M[PC] ++ M[PC+1]` (20_memory.md R49). -/
def wordOfBytes (hi lo : Byte) : Word := hi ++ lo

/-- The two bytes of a word in memory order, most significant byte first (20_memory.md R49). -/
def bytesOfWord (op : Word) : List Byte := [op.extractLsb' 8 8, op.extractLsb' 0 8]

/-- Decode the instruction at the head of a byte sequence; the rest of the sequence is returned with it (R58). -/
def decodeBytes : List Byte → Except DecodeError (Instr × List Byte)
  | hi :: lo :: rest =>
    match decode (wordOfBytes hi lo) with
    | .ok i => .ok (i, rest)
    | .error e => .error e
  | _ => .error .truncated

/-- Formats F_NNN (R60): family / nnn. -/
def encodeNnn (family : Nat) (nnn : Addr12) : Word := BitVec.ofNat 16 (family * 0x1000 + nnn.toNat)

/-- Format F_XNN (R60): family / x / nn. -/
def encodeXnn (family : Nat) (x : Reg) (nn : Byte) : Word :=
  BitVec.ofNat 16 (family * 0x1000 + x.val * 0x100 + nn.toNat)

/-- Formats F_XY and F_XYN (R60): family / x / y / n, with n a fixed nibble or a field. -/
def encodeXyn (family : Nat) (x y : Reg) (n : Nat) : Word :=
  BitVec.ofNat 16 (family * 0x1000 + x.val * 0x100 + y.val * 0x10 + n)

/-- Format F_X (R60): family / x / a fixed low byte. -/
def encodeX (family : Nat) (x : Reg) (low : Nat) : Word :=
  BitVec.ofNat 16 (family * 0x1000 + x.val * 0x100 + low)

/-- The word of an instruction, from the formats of R60 and the opcode map of R63. -/
def encode : Instr → Word
  | .cls => 0x00E0
  | .ret => 0x00EE
  | .jp nnn => encodeNnn 0x1 nnn
  | .call nnn => encodeNnn 0x2 nnn
  | .seImm x nn => encodeXnn 0x3 x nn
  | .sneImm x nn => encodeXnn 0x4 x nn
  | .seReg x y => encodeXyn 0x5 x y 0x0
  | .ldImm x nn => encodeXnn 0x6 x nn
  | .addImm x nn => encodeXnn 0x7 x nn
  | .ldReg x y => encodeXyn 0x8 x y 0x0
  | .orReg x y => encodeXyn 0x8 x y 0x1
  | .andReg x y => encodeXyn 0x8 x y 0x2
  | .xorReg x y => encodeXyn 0x8 x y 0x3
  | .addReg x y => encodeXyn 0x8 x y 0x4
  | .subReg x y => encodeXyn 0x8 x y 0x5
  | .shr x y => encodeXyn 0x8 x y 0x6
  | .subnReg x y => encodeXyn 0x8 x y 0x7
  | .shl x y => encodeXyn 0x8 x y 0xE
  | .sneReg x y => encodeXyn 0x9 x y 0x0
  | .ldI nnn => encodeNnn 0xA nnn
  | .jpV0 nnn => encodeNnn 0xB nnn
  | .rnd x nn => encodeXnn 0xC x nn
  | .drw x y n => encodeXyn 0xD x y n.val
  | .skp x => encodeX 0xE x 0x9E
  | .sknp x => encodeX 0xE x 0xA1
  | .ldVxDt x => encodeX 0xF x 0x07
  | .ldVxK x => encodeX 0xF x 0x0A
  | .ldDtVx x => encodeX 0xF x 0x15
  | .ldStVx x => encodeX 0xF x 0x18
  | .addIVx x => encodeX 0xF x 0x1E
  | .ldFVx x => encodeX 0xF x 0x29
  | .ldBVx x => encodeX 0xF x 0x33
  | .ldMemVx x => encodeX 0xF x 0x55
  | .ldVxMem x => encodeX 0xF x 0x65

/-- One row of the opcode map (R63): a word matches when `op & mask = bits`. -/
structure OpcodeRow where
  mnemonic : String
  bits : Word
  mask : Word
  deriving DecidableEq, Repr

/-- A word matches a row (R63). -/
abbrev OpcodeRow.Matches (r : OpcodeRow) (op : Word) : Prop := op &&& r.mask = r.bits

/-- Rows 1 to 9 of R63. -/
def opcodeRows1 : List OpcodeRow :=
  [⟨"CLS", 0x00E0, 0xFFFF⟩, ⟨"RET", 0x00EE, 0xFFFF⟩, ⟨"JP", 0x1000, 0xF000⟩, ⟨"CALL", 0x2000, 0xF000⟩,
   ⟨"SE_IMM", 0x3000, 0xF000⟩, ⟨"SNE_IMM", 0x4000, 0xF000⟩, ⟨"SE_REG", 0x5000, 0xF00F⟩,
   ⟨"LD_IMM", 0x6000, 0xF000⟩, ⟨"ADD_IMM", 0x7000, 0xF000⟩]

/-- Rows 10 to 18 of R63. -/
def opcodeRows2 : List OpcodeRow :=
  [⟨"LD_REG", 0x8000, 0xF00F⟩, ⟨"OR", 0x8001, 0xF00F⟩, ⟨"AND", 0x8002, 0xF00F⟩, ⟨"XOR", 0x8003, 0xF00F⟩,
   ⟨"ADD_REG", 0x8004, 0xF00F⟩, ⟨"SUB", 0x8005, 0xF00F⟩, ⟨"SHR", 0x8006, 0xF00F⟩,
   ⟨"SUBN", 0x8007, 0xF00F⟩, ⟨"SHL", 0x800E, 0xF00F⟩]

/-- Rows 19 to 25 of R63. -/
def opcodeRows3 : List OpcodeRow :=
  [⟨"SNE_REG", 0x9000, 0xF00F⟩, ⟨"LD_I", 0xA000, 0xF000⟩, ⟨"JP_V0", 0xB000, 0xF000⟩, ⟨"RND", 0xC000, 0xF000⟩,
   ⟨"DRW", 0xD000, 0xF000⟩, ⟨"SKP", 0xE09E, 0xF0FF⟩, ⟨"SKNP", 0xE0A1, 0xF0FF⟩]

/-- Rows 26 to 34 of R63. -/
def opcodeRows4 : List OpcodeRow :=
  [⟨"LD_VX_DT", 0xF007, 0xF0FF⟩, ⟨"LD_VX_K", 0xF00A, 0xF0FF⟩, ⟨"LD_DT_VX", 0xF015, 0xF0FF⟩,
   ⟨"LD_ST_VX", 0xF018, 0xF0FF⟩, ⟨"ADD_I_VX", 0xF01E, 0xF0FF⟩, ⟨"LD_F_VX", 0xF029, 0xF0FF⟩,
   ⟨"LD_B_VX", 0xF033, 0xF0FF⟩, ⟨"LD_MEM_VX", 0xF055, 0xF0FF⟩, ⟨"LD_VX_MEM", 0xF065, 0xF0FF⟩]

/-- The opcode map of R63, row by row. `decode` does not use it: a statement says that the two agree. -/
def opcodeTable : List OpcodeRow := opcodeRows1 ++ opcodeRows2 ++ opcodeRows3 ++ opcodeRows4

/-- The instruction the decoder reads from an instruction whose bits, numbered as spec/opcode_table.json numbers them,
are `w`: the 16-bit word stored most significant byte first. The bits above `nbits` are 0. -/
def decodeTableWord (nbits w : Nat) : Option Instr :=
  match decodeBytes (bytesOfWord (BitVec.ofNat 16 (w % 2 ^ nbits))) with
  | .ok (i, _) => some i
  | .error _ => none

end Sys2Proof
end

