-- ==== Sys2Proof/Machine/State.lean ====
section
/-! DEFINITION. The state of the block (spec 10_state.md R18), one field for each row of its table, and the state after
reset (70_reset_and_hazards.md R149). Two fields are the model's own: `draws` and `cfg`. -/

namespace Sys2Proof.Machine

/-- The error kinds of the block (60_exceptions.md R129). A cycle that raises one fails: the whole effect of a failed
cycle is described (40_cycle.md R79), so a step answers the NEXT state, in which `err` holds the kind and the machine is
HALTED, and no step ends in a `.fault` (log entry 1). -/
inductive Fault where
  /-- Code 1: the fetched word matches no row of the opcode map. Raised by any RUNNING cycle at decode; safe. -/
  | unknownOpcode
  /-- Code 2: a push when SP = 16. Raised by 2nnn; safe. -/
  | stackOverflow
  /-- Code 3: a pop when SP = 0. Raised by 00EE; safe. -/
  | stackUnderflow
  /-- Code 4: an access at an address above 0xFFF. Raised by the fetch, Dxyn, Fx33, Fx55 and Fx65; safe. -/
  | outOfBoundsMemoryAccess
  /-- Code 5: a program image longer than 0xE00 bytes. Raised by loadProgram; safe. -/
  | romTooLarge
  /-- Code 6: a write into the glyph table. Raised by Fx33 and Fx55; safe. -/
  | glyphTableWrite
  /-- Code 7: Vx > 0x0F as a key index. Raised by Ex9E and ExA1; safe. -/
  | keyIndexOutOfRange
  deriving DecidableEq, Repr

/-- The code of an error kind (60_exceptions.md R129, D11). -/
def Fault.code : Fault → Nat
  | .unknownOpcode => 1
  | .stackOverflow => 2
  | .stackUnderflow => 3
  | .outOfBoundsMemoryAccess => 4
  | .romTooLarge => 5
  | .glyphTableWrite => 6
  | .keyIndexOutOfRange => 7

/-- Why an operation has no meaning. No step of the machine ends in one: every instruction has its meaning. -/
inductive Refusal where
  /-- An instruction without a meaning yet. Raised by an arm of `exec`; safe. No arm raises it. -/
  | notModelled (mnemonic : String)
  /-- setKeyDown or setKeyUp with a code outside 0x0 to 0xF, a call that is not legal (60_exceptions.md R140, D27).
  Raised by the host interface only; safe. -/
  | keyCodeOutOfRange (code : Nat)
  /-- loadProgram at another time than once after reset and before the first step, a call that has no meaning
  (70_reset_and_hazards.md R152, D26). Raised by the host interface only; safe. -/
  | loadOutOfOrder
  deriving DecidableEq, Repr

/-- The interpreter state (10_state.md R34, 40_cycle.md R80). -/
inductive InterpState where
  | running
  | awaitingKey
  | halted
  deriving DecidableEq, Repr

/-- The error record latched in `err` (60_exceptions.md R130). Fields a kind does not use are `none`. -/
structure ErrorRecord where
  kind : Fault
  /-- The address of the failing instruction; none for a failed load. -/
  pc : Option Word
  /-- The fetched word; none when the fetch itself failed or for a failed load. -/
  opcode : Option Word
  /-- The lowest faulting address, for kinds 4 and 6. -/
  addr : Option Nat
  /-- The program length for kind 5, the key index for kind 7. -/
  value : Option Nat
  deriving DecidableEq, Repr

/-- The bytes of memory that differ from their reset contents, as (address, byte) pairs with rising addresses. What an
address that is not listed reads as is `Memory.unlisted`. -/
abbrev Memory := List Host.Cell

/-- The display cells: column x of 0..63, then row y of 0..31 (10_state.md R31). -/
abbrev Display := Vector (Vector Bool 32) 64

/-- The state of the block: one field for each item of 10_state.md R18, under its name there. -/
structure State where
  /-- V0 to VF (R19). -/
  v : Vector Byte 16
  /-- The address register I (R24). -/
  i : Word
  /-- The program counter (R25). -/
  pc : Word
  /-- The stack depth SP, 0 to 16 (R28). -/
  sp : Fin 17
  /-- The stack entries S[0] to S[15] (R28). -/
  stack : Vector Word 16
  /-- The delay timer DT (R30). -/
  dt : Byte
  /-- The sound timer ST (R30). -/
  st : Byte
  /-- The display cells D[x][y] (R31). -/
  display : Display
  /-- The key states K[k] (R32). -/
  keys : Vector Bool 16
  /-- Memory M[a] (R33). -/
  mem : Memory
  /-- The interpreter state (R34). -/
  state : InterpState
  /-- The latch of the key wait (R35). -/
  waitReg : Reg
  /-- The redraw level (R36). -/
  redraw : Bool
  /-- The error latch (R37). -/
  err : Option ErrorRecord
  /-- The model's own: how many random bytes have been drawn, the index of the next free value (log entry 3). -/
  draws : Nat
  /-- The model's own: the implementation parameters of 00_scope.md R8, which nothing writes (log entry 4). -/
  cfg : Config
  deriving DecidableEq, Repr

/-- The state of an implementation with parameters `c` after reset() (70_reset_and_hazards.md R149): everything zero, the
glyph table in memory (no address is listed, and an unlisted address reads as its reset contents), RUNNING. -/
def State.resetWith (c : Config) (draws : Nat) : State where
  v := Vector.replicate 16 0x00
  i := 0x0000
  pc := 0x0000
  sp := 0
  stack := Vector.replicate 16 0x0000
  dt := 0x00
  st := 0x00
  display := Vector.replicate 64 (Vector.replicate 32 false)
  keys := Vector.replicate 16 false
  mem := []
  state := .running
  waitReg := 0
  redraw := false
  err := none
  draws := draws
  cfg := c

/-- The machine right after reset, with the spec's choice of every parameter (R149, 00_scope.md R8). -/
def State.reset : State := State.resetWith Config.spec 0

end Sys2Proof.Machine
end

