-- ==== Sys2Proof/Machine/Ops.lean ====
section
/-! DEFINITION. The named operations over the state: one write for each item, memory (spec 20_memory.md), the call stack
(10_state.md R29), and the failed cycle (40_cycle.md R79), which is the one exception of this block. There is no return
from it (60_exceptions.md R134): only the host's reset() leaves HALTED. -/

namespace Sys2Proof.Machine

/-! ## Registers and control state -/

/-- Read general register `x`. -/
def State.getV (s : State) (x : Reg) : Byte := s.v[x]

/-- `V[x] <- b` (00_scope.md R12). -/
def State.setV (s : State) (x : Reg) (b : Byte) : State := { s with v := s.v.set x.val b x.isLt }

/-- `I <- a`. -/
def State.setI (s : State) (a : Word) : State := { s with i := a }

/-- `PC <- a`. -/
def State.setPC (s : State) (a : Word) : State := { s with pc := a }

/-- `DT <- b`. -/
def State.setDT (s : State) (b : Byte) : State := { s with dt := b }

/-- `ST <- b`. -/
def State.setST (s : State) (b : Byte) : State := { s with st := b }

/-- Replace the display cells. -/
def State.setDisplay (s : State) (d : Display) : State := { s with display := d }

/-- `K[k] <- down`, by the host only (60_exceptions.md R140). -/
def State.setKey (s : State) (k : Fin 16) (down : Bool) : State := { s with keys := s.keys.set k.val down k.isLt }

/-- Replace the listed bytes of memory. -/
def State.setMem (s : State) (m : Memory) : State := { s with mem := m }

/-- `state <- m`. -/
def State.setState (s : State) (m : InterpState) : State := { s with state := m }

/-- `wait_reg <- x` (10_state.md R35). -/
def State.setWaitReg (s : State) (x : Reg) : State := { s with waitReg := x }

/-- `redraw <- b` (10_state.md R36). -/
def State.setRedraw (s : State) (b : Bool) : State := { s with redraw := b }

/-- `err <- e` (10_state.md R37). -/
def State.setErr (s : State) (e : Option ErrorRecord) : State := { s with err := e }

/-- Replace the stack entries and the depth. -/
def State.setStack (s : State) (entries : Vector Word 16) (depth : Fin 17) : State :=
  { s with stack := entries, sp := depth }

/-- One random byte has been drawn: the next draw is a fresh free value (42_alu.md R107). -/
def State.countDraw (s : State) : State := { s with draws := s.draws + 1 }

/-- Whether key `k` is down, `K[k]` (60_exceptions.md R140). -/
def State.keyDown (s : State) (k : Fin 16) : Bool := s.keys[k]

/-! ## Errors -/

/-- `raise E(info)`: the kind and the information a rule raises (00_scope.md R14). -/
structure Raised where
  kind : Fault
  addr : Option Nat
  value : Option Nat
  deriving DecidableEq, Repr

/-- OutOfBoundsMemoryAccess(addr). -/
def Raised.outOfBounds (addr : Nat) : Raised := ⟨.outOfBoundsMemoryAccess, some addr, none⟩

/-- GlyphTableWrite(addr). -/
def Raised.glyphWrite (addr : Nat) : Raised := ⟨.glyphTableWrite, some addr, none⟩

/-- KeyIndexOutOfRange(value). -/
def Raised.keyIndex (value : Nat) : Raised := ⟨.keyIndexOutOfRange, none, some value⟩

/-- UnknownOpcode, StackOverflow and StackUnderflow carry no information of their own. -/
def Raised.plain (kind : Fault) : Raised := ⟨kind, none, none⟩

/-- The record that a failed cycle latches (60_exceptions.md R130). -/
def Raised.record (e : Raised) (pc0 : Word) (op : Option Word) : ErrorRecord :=
  ⟨e.kind, some pc0, op, e.addr, e.value⟩

/-- The failed cycle, from the state `s0` at its start (40_cycle.md R79): every item keeps its value of `s0`, but `err`,
which receives the record, and `state`, which becomes HALTED. `op` is the fetched word, if the fetch completed. -/
def failCycle (s0 : State) (op : Option Word) (e : Raised) : State :=
  (s0.setErr (some (e.record s0.pc op))).setState .halted

/-- `PC <- (PC + 2) mod 2^16`: the advance of the fetch (40_cycle.md R73) and of a skip (41_control_flow.md R85). -/
def State.advance (s : State) : State := s.setPC (s.pc + 2)

/-- Undo the advance of the fetch: the state at the start of the cycle, seen from an instruction rule, whose checks come
before its first write (00_scope.md R14). -/
def State.cycleStart (s : State) : State := s.setPC (s.pc - 2)

/-- End an instruction whose checks may raise an error: it completes, or its cycle fails. `s` is the state the rule
sees, with PC already advanced, and `op` the instruction's word. -/
def settle (s : State) (op : Word) (r : Except Raised State) : Host.Outcome State Fault Refusal :=
  match r with
  | .ok t => .next t
  | .error e => .next (failCycle s.cycleStart (some op) e)

/-! ## Memory -/

/-- `a` is an address of the glyph table (20_memory.md R41, R44). -/
abbrev InGlyphTable (c : Config) (a : Nat) : Prop := c.glyphBase ≤ a ∧ a < c.glyphBase + glyphTableSize

/-- What an address that is not listed reads as: its contents after reset, the glyph table's byte or 0x00 (R149). -/
def Memory.unlisted (c : Config) (a : Nat) : Byte :=
  if InGlyphTable c a then c.glyphBytes.getD (a - c.glyphBase) 0x00 else 0x00

/-- The byte at an address, of a memory in canonical form. -/
def Memory.read (c : Config) : Memory → Nat → Byte
  | [], a => Memory.unlisted c a
  | (k, b) :: m, a => if a = k then b else Memory.read c m a

/-- List a byte in front of `m`, unless it is what the address reads as when it is not listed. -/
def Memory.cons (c : Config) (a : Nat) (b : Byte) (m : Memory) : Memory :=
  if b = Memory.unlisted c a then m else (a, b) :: m

/-- Store a byte, keeping the canonical form. -/
def Memory.write (c : Config) : Memory → Nat → Byte → Memory
  | [], a, b => Memory.cons c a b []
  | (k, v) :: m, a, b =>
    if a < k then Memory.cons c a b ((k, v) :: m)
    else if a = k then Memory.cons c a b m
    else (k, v) :: Memory.write c m a b

/-- The canonical form: addresses strictly rising and inside 0x000 to 0xFFF, and no entry equal to what its address reads
as when it is not listed. -/
abbrev Memory.wf (c : Config) (m : Memory) : Prop :=
  m.Pairwise (fun p q => p.1 < q.1) ∧ ∀ p ∈ m, p.1 < memSize ∧ p.2 ≠ Memory.unlisted c p.1

/-- `M[a]`. -/
def State.readByte (s : State) (a : Nat) : Byte := Memory.read s.cfg s.mem a

/-- `M[a] <- b`, with no check. -/
def State.writeByte (s : State) (a : Nat) (b : Byte) : State := s.setMem (Memory.write s.cfg s.mem a b)

/-- `MemRead(addr, 1)` (00_scope.md R13). -/
def memRead (s : State) (a : Nat) : Except Raised Byte :=
  if memSize ≤ a then .error (.outOfBounds a) else .ok (s.readByte a)

/-- `MemWrite(addr, 1, v)` (00_scope.md R13). -/
def memWrite (s : State) (a : Nat) (b : Byte) : Except Raised State :=
  if memSize ≤ a then .error (.outOfBounds a)
  else if InGlyphTable s.cfg a then .error (.glyphWrite a)
  else .ok (s.writeByte a b)

/-- MemRead of `m` bytes from `a` upward, in order. -/
def readBytes (s : State) : Nat → Nat → Except Raised (List Byte)
  | _, 0 => .ok []
  | a, m + 1 =>
    match memRead s a with
    | .error e => .error e
    | .ok b =>
      match readBytes s (a + 1) m with
      | .error e => .error e
      | .ok bs => .ok (b :: bs)

/-- MemWrite of the given bytes from `a` upward, in order. -/
def writeBytes : State → Nat → List Byte → Except Raised State
  | s, _, [] => .ok s
  | s, a, b :: bs =>
    match memWrite s a b with
    | .error e => .error e
    | .ok t => writeBytes t (a + 1) bs

/-- Whether an instruction reads or writes the bytes it accesses (43_index_memory.md R109). -/
inductive AccessKind where
  | read
  | write
  deriving DecidableEq, Repr

/-- The checks for an access to the `m` bytes from `first` upward, `m ≥ 1`, in their order (43_index_memory.md R109). -/
def checkAccess (c : Config) (kind : AccessKind) (first m : Nat) : Except Raised Unit :=
  if 0xFFF < first + m - 1 then .error (.outOfBounds (max first 0x1000))
  else if kind = .write ∧ c.glyphBase ≤ first + m - 1 ∧ first < c.glyphBase + glyphTableSize then
    .error (.glyphWrite (max first c.glyphBase))
  else .ok ()

/-- Check, then read `m` bytes from I upward (43_index_memory.md R108, R109). -/
def loadFromI (s : State) (m : Nat) : Except Raised (List Byte) :=
  match checkAccess s.cfg .read s.i.toNat m with
  | .error e => .error e
  | .ok () => readBytes s s.i.toNat m

/-- Check, then write the bytes from I upward (43_index_memory.md R108, R109). -/
def storeAtI (s : State) (bs : List Byte) : Except Raised State :=
  match checkAccess s.cfg .write s.i.toNat bs.length with
  | .error e => .error e
  | .ok () => writeBytes s s.i.toNat bs

/-! ## The call stack -/

/-- `push(a)` (10_state.md R29). -/
def push (s : State) (a : Word) : Except Raised State :=
  if h : s.sp.val < 16 then
    .ok (s.setStack (s.stack.set s.sp.val a h) ⟨s.sp.val + 1, Nat.succ_lt_succ h⟩)
  else .error (.plain .stackOverflow)

/-- `pop()` (10_state.md R29): the popped entry and the state after it; the entry's value stays in place. -/
def pop (s : State) : Except Raised (Word × State) :=
  if h : s.sp.val = 0 then .error (.plain .stackUnderflow)
  else
    have hlt : s.sp.val - 1 < 16 := by omega
    .ok (s.stack[s.sp.val - 1], s.setStack s.stack ⟨s.sp.val - 1, Nat.lt_succ_of_lt hlt⟩)

end Sys2Proof.Machine
end

