-- ==== Sys2Proof/Machine/Operands.lean ====
section
/-! DEFINITION. The operand forms of the block: zero-extended immediates and addresses (spec 30_encoding.md R61), the
source of a shift (42_alu.md R104), a key index (45_keys_timers.md R122), a glyph address (43_index_memory.md R112), the
register block V0..Vx (R114, R115) and decimal digits (R113). -/

namespace Sys2Proof.Machine

/-- `zext_16(nnn)` (30_encoding.md R61). -/
def zextAddr (nnn : Addr12) : Word := nnn.zeroExtend 16

/-- `zext_16(V[x])` (43_index_memory.md R111, 41_control_flow.md R93). -/
def zextByte (b : Byte) : Word := b.zeroExtend 16

/-- The value a shift works on: `(SHIFT_SOURCE = Vx) ? V[x] : V[y]` (42_alu.md R104, R106). -/
def shiftOperand (s : State) (x y : Reg) : Byte :=
  match s.cfg.shiftSource with
  | .vx => s.getV x
  | .vy => s.getV y

/-- The key named by a register's value (45_keys_timers.md R122). -/
def keyIndex (b : Byte) : Except Raised (Fin 16) :=
  if h : b.toNat < 16 then .ok ⟨b.toNat, h⟩ else .error (.keyIndex b.toNat)

/-- The address of the glyph of the low nibble of `b`: `GLYPH_BASE + 5 * (b & 0x0F)` (43_index_memory.md R112). -/
def glyphAddress (c : Config) (b : Byte) : Word := BitVec.ofNat 16 (c.glyphBase + 5 * (b &&& 0x0F).toNat)

/-- The decimal digits of a byte: hundreds, tens, ones (43_index_memory.md R113). -/
def decimalDigits (b : Byte) : List Byte :=
  [BitVec.ofNat 8 (b.toNat / 100), BitVec.ofNat 8 (b.toNat / 10 % 10), BitVec.ofNat 8 (b.toNat % 10)]

/-- The values of V0 to Vx (43_index_memory.md R114). -/
def regsUpTo (s : State) (x : Reg) : List Byte := s.v.toList.take (x.val + 1)

/-- `V[k] <- b` for the given bytes, from register `k` upward (43_index_memory.md R115). -/
def setRegsFrom : State → Nat → List Byte → State
  | s, _, [] => s
  | s, k, b :: bs => if h : k < 16 then setRegsFrom (s.setV ⟨k, h⟩ b) (k + 1) bs else s

end Sys2Proof.Machine
end

