-- ==== Sys2Proof/Machine/Flags.lean ====
section
/-! DEFINITION. The values that instructions write to VF as a flag (spec 10_state.md R23). Each is computed from the
operands read before any write (42_alu.md R95). -/

namespace Sys2Proof.Machine

/-- A flag as the value of VF: 1 or 0. -/
def flagByte (f : Bool) : Byte := if f then 0x01 else 0x00

/-- 8xy4: the sum exceeds 255 (42_alu.md R102). -/
def carryFlag (a b : Byte) : Bool := decide (255 < a.toNat + b.toNat)

/-- 8xy5 and 8xy7: minuend ≥ subtrahend, so there is no borrow (42_alu.md R103, R105, D16). -/
def noBorrowFlag (minuend subtrahend : Byte) : Bool := decide (subtrahend.toNat ≤ minuend.toNat)

/-- 8xy6: bit 0 of the value shifted (42_alu.md R104). -/
def shiftedOutRight (b : Byte) : Bool := b.getLsbD 0

/-- 8xyE: bit 7 of the value shifted (42_alu.md R106). -/
def shiftedOutLeft (b : Byte) : Bool := b.getLsbD 7

/-- `V[x] <- result`, then `V[F] <- flag`: the flag is written last (42_alu.md R95). -/
def writeWithFlag (s : State) (x : Reg) (result : Byte) (flag : Bool) : State :=
  (s.setV x result).setV VF (flagByte flag)

/-- `V[x] <- result`, then `V[F] <- 0` if LOGIC_CLEARS_VF (42_alu.md R99 to R101, D15). -/
def writeLogic (s : State) (x : Reg) (result : Byte) : State :=
  if s.cfg.logicClearsVF then (s.setV x result).setV VF 0x00 else s.setV x result

end Sys2Proof.Machine
end

