-- ==== Sys2Proof/Machine/Alu.lean ====
section
/-! DEFINITION. Register and ALU instructions (spec 42_alu.md). Operands are read before any write, results wrap modulo
256 (R94, R95). -/

namespace Sys2Proof.Machine

/-- LD Vx, byte (R96). -/
def execLdImm (x : Reg) (nn : Byte) (s : State) : Host.Outcome State Fault Refusal :=
  .next (s.setV x nn)

/-- ADD Vx, byte (R97): no flag is written. -/
def execAddImm (x : Reg) (nn : Byte) (s : State) : Host.Outcome State Fault Refusal :=
  .next (s.setV x (s.getV x + nn))

/-- LD Vx, Vy (R98). -/
def execLdReg (x y : Reg) (s : State) : Host.Outcome State Fault Refusal :=
  .next (s.setV x (s.getV y))

/-- OR Vx, Vy (R99). -/
def execOr (x y : Reg) (s : State) : Host.Outcome State Fault Refusal :=
  .next (writeLogic s x (s.getV x ||| s.getV y))

/-- AND Vx, Vy (R100). -/
def execAnd (x y : Reg) (s : State) : Host.Outcome State Fault Refusal :=
  .next (writeLogic s x (s.getV x &&& s.getV y))

/-- XOR Vx, Vy (R101). -/
def execXor (x y : Reg) (s : State) : Host.Outcome State Fault Refusal :=
  .next (writeLogic s x (s.getV x ^^^ s.getV y))

/-- ADD Vx, Vy (R102). -/
def execAddReg (x y : Reg) (s : State) : Host.Outcome State Fault Refusal :=
  .next (writeWithFlag s x (s.getV x + s.getV y) (carryFlag (s.getV x) (s.getV y)))

/-- SUB Vx, Vy (R103): Vx minus Vy. -/
def execSub (x y : Reg) (s : State) : Host.Outcome State Fault Refusal :=
  .next (writeWithFlag s x (s.getV x - s.getV y) (noBorrowFlag (s.getV x) (s.getV y)))

/-- SHR Vx, Vy (R104). -/
def execShr (x y : Reg) (s : State) : Host.Outcome State Fault Refusal :=
  .next (writeWithFlag s x (shiftOperand s x y >>> 1) (shiftedOutRight (shiftOperand s x y)))

/-- SUBN Vx, Vy (R105): Vy minus Vx. -/
def execSubn (x y : Reg) (s : State) : Host.Outcome State Fault Refusal :=
  .next (writeWithFlag s x (s.getV y - s.getV x) (noBorrowFlag (s.getV y) (s.getV x)))

/-- SHL Vx, Vy (R106). -/
def execShl (x y : Reg) (s : State) : Host.Outcome State Fault Refusal :=
  .next (writeWithFlag s x (shiftOperand s x y <<< 1) (shiftedOutLeft (shiftOperand s x y)))

/-- What Cxnn does with the drawn byte `r`: `V[x] <- r & nn` (R107). -/
def rndWith (r : Byte) (x : Reg) (nn : Byte) (s : State) : State := (s.setV x (r &&& nn)).countDraw

/-- RND Vx, byte (R107): the drawn byte is a free value, fresh for each execution (log entry 3). -/
def execRnd (x : Reg) (nn : Byte) (s : State) : Host.Outcome State Fault Refusal :=
  .next (rndWith (Config.randomByte s.draws) x nn s)

end Sys2Proof.Machine
end

