-- ==== Sys2Proof/Machine/ControlFlow.lean ====
section
/-! DEFINITION. Control transfer and compare-and-skip (spec 41_control_flow.md). In every meaning PC already holds the
instruction's address plus 2 (40_cycle.md R73). -/

namespace Sys2Proof.Machine

/-- Skip the next instruction when the condition holds (R85). -/
def skipIf (s : State) (condition : Bool) : State := if condition then s.advance else s

/-- RET (R86). -/
def execRet (s : State) : Host.Outcome State Fault Refusal :=
  settle s (encode .ret) (match pop s with
    | .error e => .error e
    | .ok (a, t) => .ok (t.setPC a))

/-- JP addr (R87). -/
def execJp (nnn : Addr12) (s : State) : Host.Outcome State Fault Refusal :=
  .next (s.setPC (zextAddr nnn))

/-- CALL addr (R88): the pushed PC is the address of the instruction after the call. -/
def execCall (nnn : Addr12) (s : State) : Host.Outcome State Fault Refusal :=
  settle s (encode (.call nnn)) (match push s s.pc with
    | .error e => .error e
    | .ok t => .ok (t.setPC (zextAddr nnn)))

/-- SE Vx, byte (R89). -/
def execSeImm (x : Reg) (nn : Byte) (s : State) : Host.Outcome State Fault Refusal :=
  .next (skipIf s (decide (s.getV x = nn)))

/-- SNE Vx, byte (R90). -/
def execSneImm (x : Reg) (nn : Byte) (s : State) : Host.Outcome State Fault Refusal :=
  .next (skipIf s (decide (s.getV x ≠ nn)))

/-- SE Vx, Vy (R91). -/
def execSeReg (x y : Reg) (s : State) : Host.Outcome State Fault Refusal :=
  .next (skipIf s (decide (s.getV x = s.getV y)))

/-- SNE Vx, Vy (R92). -/
def execSneReg (x y : Reg) (s : State) : Host.Outcome State Fault Refusal :=
  .next (skipIf s (decide (s.getV x ≠ s.getV y)))

/-- JP V0, addr (R93): the offset register is always V0. -/
def execJpV0 (nnn : Addr12) (s : State) : Host.Outcome State Fault Refusal :=
  .next (s.setPC (zextAddr nnn + zextByte (s.getV 0)))

end Sys2Proof.Machine
end

