-- ==== Sys2Proof/Machine/Display.lean ====
section
/-! DEFINITION. Display instructions (spec 44_display.md). -/

namespace Sys2Proof.Machine

/-- The cell `D[x][y]` at column x and row y (10_state.md R31). -/
def Display.cell (d : Display) (x : Fin 64) (y : Fin 32) : Bool := d[x][y]

/-- `D[x][y] <- b`. -/
def Display.setCell (d : Display) (x : Fin 64) (y : Fin 32) (b : Bool) : Display :=
  d.set x.val (d[x].set y.val b y.isLt) x.isLt

/-- The display with every cell false. -/
def Display.clear : Display := Vector.replicate 64 (Vector.replicate 32 false)

/-- The column of bit-column `c` of a sprite drawn at `vx`: `(vx + c) mod 64` (R118). -/
def targetColumn (vx : Byte) (c : Nat) : Fin 64 := ⟨(vx.toNat + c) % 64, Nat.mod_lt _ (by decide)⟩

/-- The row of sprite row `r` of a sprite drawn at `vy`: `(vy + r) mod 32` (R118). -/
def targetRow (vy : Byte) (r : Nat) : Fin 32 := ⟨(vy.toNat + r) % 32, Nat.mod_lt _ (by decide)⟩

/-- What a draw works on: the cells and the collision flag so far. -/
structure Canvas where
  cells : Display
  collision : Bool
  deriving DecidableEq, Repr

/-- One pixel of a draw (R118): a collision when the pixel and the cell are both set; the pixel is XORed into the cell. -/
def drawPixel (k : Canvas) (tx : Fin 64) (ty : Fin 32) (p : Bool) : Canvas where
  cells := k.cells.setCell tx ty (k.cells.cell tx ty ^^ p)
  collision := k.collision || (p && k.cells.cell tx ty)

/-- The pixels of one sprite row, bit-columns `c` upward: pixel `c` is bit `7 - c` of the byte (R118). -/
def drawRow (vx : Byte) (ty : Fin 32) (row : Byte) (k : Canvas) : Canvas :=
  (List.range 8).foldl (fun k c => drawPixel k (targetColumn vx c) ty (row.getLsbD (7 - c))) k

/-- The rows of a sprite from row `r` upward (R118). -/
def drawRows (vx vy : Byte) : Nat → List Byte → Canvas → Canvas
  | _, [], k => k
  | r, row :: rows, k => drawRows vx vy (r + 1) rows (drawRow vx (targetRow vy r) row k)

/-- The bytes of a sprite of `n` rows (R118): with n = 0 nothing is read and nothing is checked. -/
def spriteRows (s : State) (n : RowCount) : Except Raised (List Byte) :=
  if n = 0 then .ok [] else loadFromI s n.val

/-- Draw the rows at the place that `vx` and `vy` name, write VF and request a redraw (R118, R120). -/
def drawSprite (s : State) (vx vy : Byte) (rows : List Byte) : State :=
  let k := drawRows vx vy 0 rows ⟨s.display, false⟩
  ((s.setDisplay k.cells).setV VF (flagByte k.collision)).setRedraw true

/-- CLS (R117). -/
def execCls (s : State) : Host.Outcome State Fault Refusal :=
  .next ((s.setDisplay Display.clear).setRedraw true)

/-- DRW Vx, Vy, nibble (R118): Vx and Vy are sampled before VF is written. -/
def execDrw (x y : Reg) (n : RowCount) (s : State) : Host.Outcome State Fault Refusal :=
  settle s (encode (.drw x y n)) (match spriteRows s n with
    | .error e => .error e
    | .ok rows => .ok (drawSprite s (s.getV x) (s.getV y) rows))

end Sys2Proof.Machine
end

