-- ==== Sys2Proof/Machine/IndexMemory.lean ====
section
/-! DEFINITION. Address register and memory instructions (spec 43_index_memory.md). I is never changed by a memory access
(R108); every check comes before the first write (R109). -/

namespace Sys2Proof.Machine

/-- LD I, addr (R110). -/
def execLdI (nnn : Addr12) (s : State) : Host.Outcome State Fault Refusal :=
  .next (s.setI (zextAddr nnn))

/-- ADD I, Vx (R111): I wraps modulo 2^16 and VF is not written. -/
def execAddI (x : Reg) (s : State) : Host.Outcome State Fault Refusal :=
  .next (s.setI (s.i + zextByte (s.getV x)))

/-- LD F, Vx (R112). -/
def execLdF (x : Reg) (s : State) : Host.Outcome State Fault Refusal :=
  .next (s.setI (glyphAddress s.cfg (s.getV x)))

/-- LD B, Vx (R113). -/
def execLdB (x : Reg) (s : State) : Host.Outcome State Fault Refusal :=
  settle s (encode (.ldBVx x)) (storeAtI s (decimalDigits (s.getV x)))

/-- LD [I], Vx (R114). -/
def execLdMem (x : Reg) (s : State) : Host.Outcome State Fault Refusal :=
  settle s (encode (.ldMemVx x)) (storeAtI s (regsUpTo s x))

/-- LD Vx, [I] (R115). -/
def execLdRegs (x : Reg) (s : State) : Host.Outcome State Fault Refusal :=
  settle s (encode (.ldVxMem x)) (match loadFromI s (x.val + 1) with
    | .error e => .error e
    | .ok bs => .ok (setRegsFrom s 0 bs))

end Sys2Proof.Machine
end

