-- ==== Sys2Proof/Machine/KeysTimers.lean ====
section
/-! DEFINITION. Keypad and timer instructions (spec 45_keys_timers.md). -/

namespace Sys2Proof.Machine

/-- SKP Vx (R123). -/
def execSkp (x : Reg) (s : State) : Host.Outcome State Fault Refusal :=
  settle s (encode (.skp x)) (match keyIndex (s.getV x) with
    | .error e => .error e
    | .ok k => .ok (skipIf s (s.keyDown k)))

/-- SKNP Vx (R124). -/
def execSknp (x : Reg) (s : State) : Host.Outcome State Fault Refusal :=
  settle s (encode (.sknp x)) (match keyIndex (s.getV x) with
    | .error e => .error e
    | .ok k => .ok (skipIf s (!s.keyDown k)))

/-- LD Vx, DT (R126). -/
def execLdVxDt (x : Reg) (s : State) : Host.Outcome State Fault Refusal :=
  .next (s.setV x s.dt)

/-- LD Vx, K (R125): latch x and enter AWAITING_KEY; Vx is written by the key wait. -/
def execLdVxK (x : Reg) (s : State) : Host.Outcome State Fault Refusal :=
  .next ((s.setWaitReg x).setState .awaitingKey)

/-- LD DT, Vx (R127). -/
def execLdDtVx (x : Reg) (s : State) : Host.Outcome State Fault Refusal :=
  .next (s.setDT (s.getV x))

/-- LD ST, Vx (R128). -/
def execLdStVx (x : Reg) (s : State) : Host.Outcome State Fault Refusal :=
  .next (s.setST (s.getV x))

end Sys2Proof.Machine
end

