-- ==== Sys2Proof/Machine/Cycle.lean ====
section
/-! DEFINITION. The cycle of the interpreter (spec 40_cycle.md): the fetch, the RUNNING cycle, the key wait, and the place
of the next instruction word for `withFetchWord`. -/

namespace Sys2Proof.Machine

/-- Fetch the instruction word at PC: `MemRead(PC, 1) ++ MemRead(PC + 1, 1)` (40_cycle.md R72, 20_memory.md R48, R49). -/
def fetch (s : State) : Except Raised Word :=
  match memRead s s.pc.toNat with
  | .error e => .error e
  | .ok hi =>
    match memRead s (s.pc.toNat + 1) with
    | .error e => .error e
    | .ok lo => .ok (wordOfBytes hi lo)

/-- A cycle in RUNNING (R72 to R75): fetch, advance PC, decode, execute. A cycle whose fetch or decode fails is a failed
cycle from `s` (R79). -/
def runCycle (s : State) : Host.Outcome State Fault Refusal :=
  match fetch s with
  | .error e => .next (failCycle s none e)
  | .ok op =>
    match decode op with
    | .error _ => .next (failCycle s (some op) (.plain .unknownOpcode))
    | .ok i => exec i s.advance

/-- The lowest-numbered key that is down, if one is (R76). -/
def lowestKeyDown (s : State) : Option (Fin 16) := (List.finRange 16).find? s.keyDown

/-- A cycle in AWAITING_KEY (R76, R77): with a key down, `V[wait_reg]` receives its code and the machine runs again;
otherwise nothing changes. -/
def awaitPoll (s : State) : State :=
  match lowestKeyDown s with
  | some k => (s.setV s.waitReg (BitVec.ofNat 8 k.val)).setState .running
  | none => s

/-- Where `withFetchWord` puts the next instruction word: at PC when PC is in the program region and a word fits there,
else at 0x200, where loadProgram puts a program's first word (70_reset_and_hazards.md R151; log entry 8). -/
def fetchSlot (s : State) : Word := if 0x200 ≤ s.pc.toNat ∧ s.pc.toNat ≤ 0xFFE then s.pc else 0x200

/-- Store the word `op` at the slot, most significant byte first, and make the machine RUNNING with PC at the slot. -/
def placeWord (s : State) (op : Word) : State :=
  let slot := fetchSlot s
  let stored := (s.writeByte slot.toNat (op.extractLsb' 8 8)).writeByte (slot.toNat + 1) (op.extractLsb' 0 8)
  (stored.setPC slot).setState .running

end Sys2Proof.Machine
end

