-- ==== Sys2Proof/Machine/Step.lean ====
section
/-! DEFINITION. One step of the machine: `step()` (spec 40_cycle.md R70). -/

namespace Sys2Proof.Machine

/-- `step()` performs exactly one cycle, and what it does depends on `state` (R70). In HALTED it changes nothing (R78). -/
def step (s : State) : Host.Outcome State Fault Refusal :=
  match s.state with
  | .running => runCycle s
  | .awaitingKey => .next (awaitPoll s)
  | .halted => .next s

/-- `s` with the instruction word `w` stored where `step` fetches its next instruction. It stands for the load of a
program (log entry 8): after reset, as loadProgram does, it puts the word at 0x200 and PC there. -/
def State.withFetchWord (s : State) (nbits w : Nat) : State := placeWord s (BitVec.ofNat 16 (w % 2 ^ nbits))

end Sys2Proof.Machine
end

