-- ==== Sys2Proof/Machine/HostInterface.lean ====
section
/-! DEFINITION. The operations the host performs on the block (spec 60_exceptions.md R143), each atomic and between cycles,
and a session: a machine under a sequence of them, in any order the host chooses (R144). -/

namespace Sys2Proof.Machine

/-- What `step()` and `loadProgram()` return (40_cycle.md R81, 70_reset_and_hazards.md R151). -/
inductive StepResult where
  | ok
  | waiting
  | fail (kind : Fault)
  | halted
  deriving DecidableEq, Repr

/-- What `step()` returns in state `s` (40_cycle.md R81): Ok, Waiting, Fail(E) or Halted. A RUNNING cycle fails exactly
when it enters HALTED (R80), and E is then the kind in `err`. -/
def stepResult (s : State) : StepResult :=
  match s.state with
  | .halted => .halted
  | .awaitingKey => if (lowestKeyDown s).isSome then .ok else .waiting
  | .running =>
    match step s with
    | .next t =>
      match t.state, t.err with
      | .halted, some e => .fail e.kind
      | _, _ => .ok
    | .fault e => .fail e
    | .refused _ => .halted

/-- `tick()` (60_exceptions.md R137): both timers count down to 0, in every interpreter state. -/
def tick (s : State) : State :=
  (s.setDT (if s.dt = 0 then 0 else s.dt - 1)).setST (if s.st = 0 then 0 else s.st - 1)

/-- `isSoundActive()` (60_exceptions.md R138). -/
def isSoundActive (s : State) : Bool := decide (0 < s.st.toNat)

/-- `clearRedraw()` (60_exceptions.md R142). -/
def clearRedraw (s : State) : State := s.setRedraw false

/-- `reset()` (70_reset_and_hazards.md R149): every item to its reset value, in every state. The implementation parameters
stay, and so does the count of draws, so that a random byte drawn after a reset is a fresh free value (log entry 3). -/
def resetMachine (s : State) : State := State.resetWith s.cfg s.draws

/-- `M[a + j] <- bytes[j]` for the program image. -/
def copyImage : State → Nat → List Byte → State
  | s, _, [] => s
  | s, a, b :: bs => copyImage (s.writeByte a b) (a + 1) bs

/-- The record of a failed load (60_exceptions.md R130). -/
def romTooLargeRecord (length : Nat) : ErrorRecord := ⟨.romTooLarge, none, none, none, some length⟩

/-- `loadProgram(bytes)` (70_reset_and_hazards.md R151), where it is legal. -/
def loadProgram (s : State) (image : List Byte) : State :=
  if ImageWellFormed image then ((copyImage s programBase image).setPC 0x0200).setI 0x0000
  else (s.setErr (some (romTooLargeRecord image.length))).setState .halted

/-- What `loadProgram(bytes)` returns (R151). -/
def loadResult (image : List Byte) : StepResult := if ImageWellFormed image then .ok else .fail .romTooLarge

/-- The operations of the block's interface (60_exceptions.md R143). -/
inductive HostOp where
  | reset
  | loadProgram (image : List Byte)
  | step
  | tick
  | setKeyDown (code : Nat)
  | setKeyUp (code : Nat)
  | readDisplay
  | isSoundActive
  | readRedraw
  | clearRedraw
  | readState
  | readErr
  deriving DecidableEq, Repr

/-- A machine with the one fact about its past that the interface depends on: whether a loadProgram is legal now, that
is, a reset() came and since then neither a step() nor a loadProgram() (70_reset_and_hazards.md R152). The block itself
has no state for it (10_state.md R18). -/
structure Session where
  machine : State
  loadable : Bool
  deriving DecidableEq, Repr

/-- A session right after the first reset() of a machine with parameters `c`. -/
def Session.start (c : Config) : Session := ⟨State.resetWith c 0, true⟩

/-- The session after an operation. A key code outside 0x0 to 0xF (R140) and a loadProgram out of order (R152) have no
meaning: refused by name. -/
def Session.perform (u : Session) : HostOp → Host.Outcome Session Fault Refusal
  | .reset => .next ⟨resetMachine u.machine, true⟩
  | .loadProgram image =>
    if u.loadable then .next ⟨Sys2Proof.Machine.loadProgram u.machine image, false⟩ else .refused .loadOutOfOrder
  | .step =>
    match Sys2Proof.Machine.step u.machine with
    | .next t => .next ⟨t, false⟩
    | .fault e => .fault e
    | .refused r => .refused r
  | .tick => .next ⟨Sys2Proof.Machine.tick u.machine, u.loadable⟩
  | .setKeyDown code =>
    if h : KeyCodeWellFormed code then .next ⟨u.machine.setKey ⟨code, Nat.lt_succ_of_le h⟩ true, u.loadable⟩
    else .refused (.keyCodeOutOfRange code)
  | .setKeyUp code =>
    if h : KeyCodeWellFormed code then .next ⟨u.machine.setKey ⟨code, Nat.lt_succ_of_le h⟩ false, u.loadable⟩
    else .refused (.keyCodeOutOfRange code)
  | .readDisplay => .next u
  | .isSoundActive => .next u
  | .readRedraw => .next u
  | .clearRedraw => .next ⟨Sys2Proof.Machine.clearRedraw u.machine, u.loadable⟩
  | .readState => .next u
  | .readErr => .next u

/-- What an operation returns to the host. -/
inductive Reply where
  | none
  | result (r : StepResult)
  | display (d : Display)
  | level (b : Bool)
  | state (m : InterpState)
  | err (e : Option ErrorRecord)
  deriving DecidableEq, Repr

/-- The reply to an operation in the state before it (R138, R141, R142, R143; 40_cycle.md R81). -/
def State.reply (s : State) : HostOp → Reply
  | .reset => .none
  | .loadProgram image => .result (loadResult image)
  | .step => .result (stepResult s)
  | .tick => .none
  | .setKeyDown _ => .none
  | .setKeyUp _ => .none
  | .readDisplay => .display s.display
  | .isSoundActive => .level (Sys2Proof.Machine.isSoundActive s)
  | .readRedraw => .level s.redraw
  | .clearRedraw => .none
  | .readState => .state s.state
  | .readErr => .err s.err

/-- A finite sequence of host operations, in the order given (70_reset_and_hazards.md R155); it stops at the first operation
without a meaning. -/
def Session.run : Session → List HostOp → Host.Outcome Session Fault Refusal
  | u, [] => .next u
  | u, op :: ops =>
    match u.perform op with
    | .next u' => Session.run u' ops
    | .fault e => .fault e
    | .refused r => .refused r

/-- An infinite sequence of host operations, `ops 0` first, with the session before each of them (R155). -/
def Session.RunsForever (u : Nat → Session) (ops : Nat → HostOp) : Prop := ∀ n, (u n).perform (ops n) = .next (u (n + 1))

/-- A launch state: what reset() and then loadProgram() of an image that fits leave, on any machine (R153). -/
def Session.Launched (u : Session) : Prop :=
  ∃ (v : Session) (image : List Byte), ImageWellFormed image ∧ v.run [.reset, .loadProgram image] = .next u

/-- A run from a launch state is a finite or infinite sequence of host operations (R155): the finite kind, from `u` to
`u'`. -/
def Session.FiniteRun (u : Session) (ops : List HostOp) (u' : Session) : Prop := u.Launched ∧ u.run ops = .next u'

/-- The infinite kind of run (R155). -/
def Session.InfiniteRun (u : Nat → Session) (ops : Nat → HostOp) : Prop :=
  (u 0).Launched ∧ Session.RunsForever u ops

end Sys2Proof.Machine
end

