-- ==== Sys2Proof/Safety.lean ====
section
/-! DEFINITION. The terms claims are stated in: what an operation leaves unchanged, the instruction a state fetches, the
invariant of the machine, when a run has ended in error (spec 70_reset_and_hazards.md R155), and which bytes and registers
an instruction accesses. -/

namespace Sys2Proof.Machine

/-! ## What an operation leaves unchanged -/

/-- The items of the state other than the general registers and the parameters (10_state.md R18). `stack` is SP with the
entries. -/
inductive Item where
  | i
  | pc
  | stack
  | dt
  | st
  | display
  | keys
  | memory
  | state
  | waitReg
  | redraw
  | err
  | draws
  deriving DecidableEq, Repr

/-- From `s` to `t` nothing changed but, possibly, the items and the registers named. Memory is compared byte by byte. -/
structure Unchanged (items : List Item) (regs : List Reg) (s t : State) : Prop where
  v : ∀ r, r ∉ regs → t.getV r = s.getV r
  i : Item.i ∉ items → t.i = s.i
  pc : Item.pc ∉ items → t.pc = s.pc
  sp : Item.stack ∉ items → t.sp = s.sp
  stack : Item.stack ∉ items → t.stack = s.stack
  dt : Item.dt ∉ items → t.dt = s.dt
  st : Item.st ∉ items → t.st = s.st
  display : Item.display ∉ items → t.display = s.display
  keys : Item.keys ∉ items → t.keys = s.keys
  memory : Item.memory ∉ items → ∀ a, t.readByte a = s.readByte a
  state : Item.state ∉ items → t.state = s.state
  waitReg : Item.waitReg ∉ items → t.waitReg = s.waitReg
  redraw : Item.redraw ∉ items → t.redraw = s.redraw
  err : Item.err ∉ items → t.err = s.err
  draws : Item.draws ∉ items → t.draws = s.draws
  cfg : t.cfg = s.cfg

/-! ## The instruction a cycle runs -/

/-- The word at PC, most significant byte first (20_memory.md R49). -/
def fetchedWord (s : State) : Word := wordOfBytes (s.readByte s.pc.toNat) (s.readByte (s.pc.toNat + 1))

/-- The next cycle fetches and runs instruction `i`: the machine is RUNNING, both bytes of the word are in memory, and
the word decodes to `i` (40_cycle.md R72 to R75). -/
def Runs (s : State) (i : Instr) : Prop :=
  s.state = .running ∧ s.pc.toNat ≤ 0xFFE ∧ decode (fetchedWord s) = .ok i

/-- The state after a cycle from `s` that failed with `kind` and the information given (40_cycle.md R79): only `err` and
`state` differ from `s`, so PC is still the address of the failing instruction. -/
def failedState (s : State) (kind : Fault) (op : Option Word) (addr value : Option Nat) : State :=
  { s with err := some ⟨kind, some s.pc, op, addr, value⟩, state := .halted }

/-- The state that instruction `i` leaves when its rule raises an error. The rule sees PC already advanced (40_cycle.md R73),
so the start of the cycle is `s` with PC two lower. -/
def failedExec (s : State) (i : Instr) (kind : Fault) (addr value : Option Nat) : State :=
  failedState { s with pc := s.pc - 2 } kind (some (encode i)) addr value

/-! ## Which registers and bytes an instruction accesses -/

/-- The registers an instruction may write in its own cycle (10_state.md R21, R23). Fx0A writes none: the key wait
does. -/
def writtenRegs (c : Config) : Instr → List Reg
  | .ldImm x _ => [x]
  | .addImm x _ => [x]
  | .ldReg x _ => [x]
  | .orReg x _ => if c.logicClearsVF then [x, VF] else [x]
  | .andReg x _ => if c.logicClearsVF then [x, VF] else [x]
  | .xorReg x _ => if c.logicClearsVF then [x, VF] else [x]
  | .addReg x _ => [x, VF]
  | .subReg x _ => [x, VF]
  | .shr x _ => [x, VF]
  | .subnReg x _ => [x, VF]
  | .shl x _ => [x, VF]
  | .rnd x _ => [x]
  | .drw _ _ _ => [VF]
  | .ldVxDt x => [x]
  | .ldVxMem x => (List.finRange 16).filter (fun r => r ≤ x)
  | .cls => []
  | .ret => []
  | .jp _ => []
  | .call _ => []
  | .seImm _ _ => []
  | .sneImm _ _ => []
  | .seReg _ _ => []
  | .sneReg _ _ => []
  | .ldI _ => []
  | .jpV0 _ => []
  | .skp _ => []
  | .sknp _ => []
  | .ldVxK _ => []
  | .ldDtVx _ => []
  | .ldStVx _ => []
  | .addIVx _ => []
  | .ldFVx _ => []
  | .ldBVx _ => []
  | .ldMemVx _ => []

/-- How many bytes from I upward an instruction accesses (20_memory.md R51); 0 for an instruction that accesses none. -/
def accessedBytes : Instr → Nat
  | .drw _ _ n => n.val
  | .ldBVx _ => 3
  | .ldMemVx x => x.val + 1
  | .ldVxMem x => x.val + 1
  | .cls => 0
  | .ret => 0
  | .jp _ => 0
  | .call _ => 0
  | .seImm _ _ => 0
  | .sneImm _ _ => 0
  | .seReg _ _ => 0
  | .ldImm _ _ => 0
  | .addImm _ _ => 0
  | .ldReg _ _ => 0
  | .orReg _ _ => 0
  | .andReg _ _ => 0
  | .xorReg _ _ => 0
  | .addReg _ _ => 0
  | .subReg _ _ => 0
  | .shr _ _ => 0
  | .subnReg _ _ => 0
  | .shl _ _ => 0
  | .sneReg _ _ => 0
  | .ldI _ => 0
  | .jpV0 _ => 0
  | .rnd _ _ => 0
  | .skp _ => 0
  | .sknp _ => 0
  | .ldVxDt _ => 0
  | .ldVxK _ => 0
  | .ldDtVx _ => 0
  | .ldStVx _ => 0
  | .addIVx _ => 0
  | .ldFVx _ => 0

/-- The instructions that write memory (20_memory.md R51). -/
def WritesMemory (i : Instr) : Prop := ∃ x, i = .ldBVx x ∨ i = .ldMemVx x

/-- The `m` bytes from I upward lie in memory and outside the glyph table (43_index_memory.md R109). -/
def StoreAllowed (s : State) (m : Nat) : Prop :=
  s.i.toNat + m ≤ memSize ∧ ∀ k < m, ¬ InGlyphTable s.cfg (s.i.toNat + k)

/-- The pixel of an `n`-row sprite at `s.i`, drawn at (`vx`, `vy`), that lands on cell (X, Y) is set (44_display.md R118):
bit `7 - c` of the byte of row `r`, for some `r` and `c` whose target is that cell. -/
def SpriteSets (s : State) (vx vy : Byte) (n : RowCount) (X : Fin 64) (Y : Fin 32) : Prop :=
  ∃ r < n.val, ∃ c < 8, X.val = (vx.toNat + c) % 64 ∧ Y.val = (vy.toNat + r) % 32 ∧
    (s.readByte (s.i.toNat + r)).getLsbD (7 - c) = true

/-! ## The call stack as a sequence -/

/-- Push the addresses of a list, the head first (10_state.md R29). -/
def pushAll : State → List Word → Except Raised State
  | s, [] => .ok s
  | s, a :: as =>
    match push s a with
    | .error e => .error e
    | .ok t => pushAll t as

/-- Pop `n` addresses: the addresses in the order they are popped, and the state after (10_state.md R29). -/
def popAll : State → Nat → Except Raised (List Word × State)
  | s, 0 => .ok ([], s)
  | s, n + 1 =>
    match pop s with
    | .error e => .error e
    | .ok (a, t) =>
      match popAll t n with
      | .error e => .error e
      | .ok (as, u) => .ok (a :: as, u)

/-- Two states that differ at most in the stack entries that are not in use, S[SP] to S[15] (10_state.md R29). -/
def SameUsedStack (s t : State) : Prop :=
  t = { s with stack := t.stack } ∧ ∀ k : Fin 16, k.val < s.sp.val → t.stack[k] = s.stack[k]

/-! ## Invariant and end of a run -/

/-- What holds of every state the machine can reach. -/
structure State.Inv (s : State) : Prop where
  /-- The parameters are legal (00_scope.md R9). -/
  cfg : s.cfg.WellFormed
  /-- Memory is in canonical form, inside 0x000 to 0xFFF. -/
  mem : Memory.wf s.cfg s.mem
  /-- The glyph table holds its bitmaps: it is immutable (20_memory.md R44). -/
  glyphs : ∀ j < glyphTableSize, s.readByte (s.cfg.glyphBase + j) = s.cfg.glyphBytes.getD j 0x00
  /-- PC never exceeds 0x10FE, so its arithmetic never wraps (10_state.md R26). -/
  pc : s.pc.toNat ≤ 0x10FE
  /-- A return address is at most 0x1000 (41_control_flow.md R86). -/
  stack : ∀ k : Fin 16, s.stack[k].toNat ≤ 0x1000
  /-- The machine is HALTED exactly when an error is latched (40_cycle.md R80, 10_state.md R37). -/
  halted : s.state = .halted ↔ s.err ≠ none

/-- A run has ended in error (70_reset_and_hazards.md R155). -/
def EndedInError (s : State) : Prop := s.state = .halted ∧ s.err ≠ none

/-- An operation that has a meaning whenever the host calls it: every one but loadProgram, which is legal at one time only
(70_reset_and_hazards.md R152), and a key event of a code above 0xF (60_exceptions.md R140). -/
def AlwaysLegal : HostOp → Prop
  | .reset => True
  | .loadProgram _ => False
  | .step => True
  | .tick => True
  | .setKeyDown code => KeyCodeWellFormed code
  | .setKeyUp code => KeyCodeWellFormed code
  | .readDisplay => True
  | .isSoundActive => True
  | .readRedraw => True
  | .clearRedraw => True
  | .readState => True
  | .readErr => True

/-- The first `n` operations of an infinite sequence. -/
def firstOps (ops : Nat → HostOp) (n : Nat) : List HostOp := (List.range n).map ops

end Sys2Proof.Machine
end

