-- ==== Sys2Proof/Certificates/Slice0/Obligations.lean ====
section
/-! DEFINITION. The statements for the provers. Each docstring names the rule of spec/ it formalises, and the spec's own
decision (`92_eei_decisions.md` D<n>) or the log entry where it rests on one. -/

open Sys2Proof Sys2Proof.Machine

/-! ## Encoding -/

/-- 30_encoding.md R58 to R64, 20_memory.md R49: the stored bytes of an instruction, most significant byte first, decode to
that instruction with every operand, whatever bytes follow. -/
def Obligations.DecodeOfEncodedBytesGivesTheInstruction : Prop :=
  ∀ (i : Instr) (rest : List Byte), decodeBytes (bytesOfWord (encode i) ++ rest) = .ok (i, rest)

/-- 30_encoding.md R64, R66: a word that decodes is the encoding of its instruction, so no bit of it is ignored. That every
fixed nibble must match is the spec's decision D2 (log entry 23). -/
def Obligations.EncodeOfDecodedWordGivesTheWord : Prop :=
  ∀ (op : Word) (i : Instr), decode op = .ok i → encode i = op

/-- 30_encoding.md R63, R64, R65 (27 of the words are the spec's decision D1): the decoder and the opcode map agree on every
word. A word decodes to an instruction of exactly the row it matches; a word that matches no row is UnknownOpcode; no word
matches two rows. -/
def Obligations.DecodeAgreesWithTheOpcodeMap : Prop :=
  opcodeTable.length = 34 ∧
  ∀ op : Word,
    (∀ i, decode op = .ok i → ∃ r ∈ opcodeTable, r.Matches op ∧ r.mnemonic = i.mnemonic) ∧
    (∀ r ∈ opcodeTable, r.Matches op → ∃ i, decode op = .ok i ∧ i.mnemonic = r.mnemonic) ∧
    ((∀ r ∈ opcodeTable, ¬ r.Matches op) → decode op = .error (.unknownOpcode op)) ∧
    (∀ r ∈ opcodeTable, ∀ r' ∈ opcodeTable, r.Matches op → r'.Matches op → r = r')

/-- Words written out from 30_encoding.md R63, one of each format and some undefined ones, and what they decode to. The
words 00E0, 00EE, 1ABC, 3112, 8124 and F165 are of the 27 that the spec takes from general knowledge, its decision D1 (log
entry 2); that 0123 and 5121 are refused is its decision D2 (log entry 23). -/
def Obligations.SpecWordsDecode : Prop :=
  decode 0x00E0 = .ok .cls ∧ decode 0x00EE = .ok .ret ∧ decode 0x1ABC = .ok (.jp 0xABC) ∧
  decode 0x3112 = .ok (.seImm 1 0x12) ∧ decode 0x8124 = .ok (.addReg 1 2) ∧ decode 0xD125 = .ok (.drw 1 2 5) ∧
  decode 0xE19E = .ok (.skp 1) ∧ decode 0xF165 = .ok (.ldVxMem 1) ∧
  decode 0x0123 = .error (.unknownOpcode 0x0123) ∧ decode 0x5121 = .error (.unknownOpcode 0x5121)

/-! ## The cycle -/

/-- 40_cycle.md R72 to R75: when the two bytes at PC, most significant first, decode to `i`, the RUNNING cycle is `i` run
with PC two further. -/
def Obligations.StepRunsTheFetchedInstruction : Prop :=
  ∀ (s : State) (i : Instr), Runs s i → step s = exec i { s with pc := s.pc + 2 }

/-- 20_memory.md R48, 40_cycle.md R72, R79 (the spec's decisions D8, D9, D10): a fetch of which a byte lies beyond memory
fails the cycle with the lowest such address, PC when PC ≥ 0x1000 and 0x1000 when PC = 0xFFF; there is no opcode in the
record. -/
def Obligations.FetchBeyondMemoryFailsTheCycle : Prop :=
  ∀ s : State, s.state = .running →
    (0x1000 ≤ s.pc.toNat →
      step s = .next (failedState s .outOfBoundsMemoryAccess none (some s.pc.toNat) none)) ∧
    (s.pc.toNat = 0xFFF → step s = .next (failedState s .outOfBoundsMemoryAccess none (some 0x1000) none))

/-- 40_cycle.md R74, R79, 30_encoding.md R65 (the spec's decisions D2, D9, D10): a word that is no instruction fails the
cycle with UnknownOpcode and the word; nothing else changes. -/
def Obligations.UnmatchedWordFailsTheCycle : Prop :=
  ∀ s : State, s.state = .running → s.pc.toNat ≤ 0xFFE → (∀ r ∈ opcodeTable, ¬ r.Matches (fetchedWord s)) →
    step s = .next (failedState s .unknownOpcode (some (fetchedWord s)) none none)

/-- 40_cycle.md R71, R81: step() never blocks, every call returns. The rules say that it returns; that what it returns to is
always a next state, also after a failed cycle, so that no step faults or is refused, is read from R79 and is the model's
(log entry 1, DEDUCED). -/
def Obligations.StepAlwaysAnswersANextState : Prop :=
  ∀ s : State, ∃ t, step s = .next t

/-- 40_cycle.md R78 (no change: the spec's decision D29): in HALTED, step() changes nothing and returns Halted, and no
operation of the host but reset() leaves HALTED. -/
def Obligations.HaltedIsTerminal : Prop :=
  (∀ s : State, s.state = .halted → step s = .next s ∧ stepResult s = .halted) ∧
  (∀ (u u' : Session) (op : HostOp), u.machine.state = .halted → op ≠ .reset → u.perform op = .next u' →
    u'.machine.state = .halted)

/-- 40_cycle.md R76, R77 (level test and lowest key: the spec's decision D20): a cycle in AWAITING_KEY with a key down writes
the lowest key's code to V[wait_reg] and runs again, PC and all else unchanged; with none down nothing changes. -/
def Obligations.KeyWaitTakesTheLowestKeyDown : Prop :=
  ∀ s : State, s.state = .awaitingKey →
    (∀ k : Fin 16, s.keyDown k = true → (∀ j, j < k → s.keyDown j = false) →
      stepResult s = .ok ∧
      ∃ t, step s = .next t ∧ (t.getV s.waitReg).toNat = k.val ∧ t.state = .running ∧
        Unchanged [.state] [s.waitReg] s t) ∧
    ((∀ k, s.keyDown k = false) → step s = .next s ∧ stepResult s = .waiting)

/-- 40_cycle.md R79, 60_exceptions.md R133 (the spec's decisions D9, D10): whatever instruction fails, a RUNNING cycle that
ends HALTED leaves every item at its value at the start of the cycle but `err` and `state`. The record names the failing
instruction's address and the word fetched, if the fetch completed, and step() returns Fail with its kind. -/
def Obligations.FailedCycleRestoresItsStart : Prop :=
  ∀ s t : State, s.state = .running → step s = .next t → t.state = .halted →
    ∃ kind addr value, stepResult s = .fail kind ∧
      t = failedState s kind (if s.pc.toNat ≤ 0xFFE then some (fetchedWord s) else none) addr value

/-- 60_exceptions.md R129, R130 (the spec's decision D11): a failed cycle is of one of the six kinds a cycle raises, and each
field of its record is there exactly when it is used: pc always, the address of the failing instruction; opcode unless the
fetch itself failed, the word fetched; addr for kinds 4 and 6; value for kind 7. -/
def Obligations.ErrorRecordHoldsWhatItsKindUses : Prop :=
  ∀ s t : State, s.state = .running → step s = .next t → t.state = .halted →
    ∃ e, t.err = some e ∧ e.kind ≠ .romTooLarge ∧ e.pc = some s.pc ∧
      (e.opcode = none ↔ 0xFFE < s.pc.toNat) ∧
      (∀ op, e.opcode = some op → op = fetchedWord s) ∧
      (e.addr ≠ none ↔ e.kind = .outOfBoundsMemoryAccess ∨ e.kind = .glyphTableWrite) ∧
      (e.value ≠ none ↔ e.kind = .keyIndexOutOfRange)

/-- 40_cycle.md R80, every row of the table about step(). From RUNNING it leads to AWAITING_KEY exactly when the cycle runs
Fx0A, to HALTED exactly when the cycle fails, and to RUNNING exactly when an instruction other than Fx0A completes. From
AWAITING_KEY it leads to RUNNING when a key is down (a level, the spec's decision D20), else nowhere. HALTED stays. The rows
about reset and loadProgram are in ResetSetsEveryItem and LoadProgramCopiesTheImage. -/
def Obligations.StepFollowsTheTransitionTable : Prop :=
  ∀ s t : State, step s = .next t →
    (s.state = .running →
      (t.state = .awaitingKey ↔ ∃ x, Runs s (.ldVxK x)) ∧
      (t.state = .halted ↔ ∃ kind, stepResult s = .fail kind) ∧
      (t.state = .running ↔ stepResult s = .ok ∧ ∃ i, Runs s i ∧ ∀ x, i ≠ .ldVxK x)) ∧
    (s.state = .awaitingKey → t.state = if ∃ k, s.keyDown k = true then .running else .awaitingKey) ∧
    (s.state = .halted → t.state = .halted)

/-- 40_cycle.md R81 (the names are the spec's decision D11): step() returns Halted exactly in HALTED, Waiting exactly in
AWAITING_KEY with no key down, Fail of a kind exactly when a RUNNING cycle ends HALTED with that kind, and else Ok. A run
has then ended in error (70_reset_and_hazards.md R155, the spec's decision D29). -/
def Obligations.StepResultNamesTheOutcome : Prop :=
  ∀ s t : State, step s = .next t →
    (stepResult s = .halted ↔ s.state = .halted) ∧
    (stepResult s = .waiting ↔ s.state = .awaitingKey ∧ ∀ k, s.keyDown k = false) ∧
    (∀ kind, stepResult s = .fail kind ↔
      s.state = .running ∧ t.state = .halted ∧ ∃ e, t.err = some e ∧ e.kind = kind) ∧
    (∀ kind, stepResult s = .fail kind → EndedInError t)

/-! ## Whole-machine rules -/

/-- The invariant of the machine (`State.Inv`: 00_scope.md R9, 20_memory.md R40, R44, 10_state.md R26, 41_control_flow.md
R86, 40_cycle.md R80) is kept by every step, from every state that meets it. -/
def Obligations.StepKeepsTheInvariant : Prop :=
  ∀ s t : State, s.Inv → step s = .next t → t.Inv

/-- The invariant holds after reset: with the spec's parameters, and with any legal ones. -/
def Obligations.ResetMeetsTheInvariant : Prop :=
  State.reset.Inv ∧ ∀ (c : Config) (n : Nat), c.WellFormed → (State.resetWith c n).Inv

/-- 60_exceptions.md R144 (any order: the spec's decision D23), 70_reset_and_hazards.md R155: every sequence of host
operations, in any order, finite or infinite, keeps the invariant. -/
def Obligations.EveryRunKeepsTheInvariant : Prop :=
  (∀ (u u' : Session) (ops : List HostOp), u.machine.Inv → u.run ops = .next u' → u'.machine.Inv) ∧
  (∀ (u : Nat → Session) (ops : Nat → HostOp), (u 0).machine.Inv → Session.RunsForever u ops →
    ∀ n, (u n).machine.Inv)

/-- 10_state.md R18, R21, 20_memory.md R51: which instructions write a general register, I, the stack, or a byte of
memory, and which. -/
def Obligations.OnlyNamedInstructionsWriteRegistersAndMemory : Prop :=
  ∀ s t : State, s.state = .running → Memory.wf s.cfg s.mem → step s = .next t →
    (∀ r, t.getV r ≠ s.getV r → ∃ i, Runs s i ∧ r ∈ writtenRegs s.cfg i) ∧
    (t.i ≠ s.i → (∃ nnn, Runs s (.ldI nnn)) ∨ ∃ x, Runs s (.addIVx x) ∨ Runs s (.ldFVx x)) ∧
    (t.sp ≠ s.sp ∨ t.stack ≠ s.stack → Runs s .ret ∨ ∃ nnn, Runs s (.call nnn)) ∧
    (∀ a, t.readByte a ≠ s.readByte a →
      ∃ i, Runs s i ∧ WritesMemory i ∧ s.i.toNat ≤ a ∧ a < s.i.toNat + accessedBytes i)

/-- 40_cycle.md R83: from every state, a cycle changes DT only by running Fx15 and ST only by running Fx18. So no cycle counts
a timer down, the legacy defect. -/
def Obligations.TimersChangeOnlyByTheirInstructions : Prop :=
  ∀ s t : State, step s = .next t →
    (t.dt ≠ s.dt → ∃ x, Runs s (.ldDtVx x)) ∧ (t.st ≠ s.st → ∃ x, Runs s (.ldStVx x))

/-- 44_display.md R120, R121, 10_state.md R32, R35 (the redraw level: the spec's decision D22): a cycle changes the display and
the redraw level only by 00E0 and Dxyn, wait_reg only by Fx0A, and never the keypad or the parameters; and no cycle clears
the redraw level. -/
def Obligations.OnlyNamedInstructionsWriteDisplayAndLatches : Prop :=
  ∀ s t : State, step s = .next t →
    (t.display ≠ s.display ∨ t.redraw ≠ s.redraw → Runs s .cls ∨ ∃ x y n, Runs s (.drw x y n)) ∧
    (t.waitReg ≠ s.waitReg → ∃ x, Runs s (.ldVxK x)) ∧
    t.keys = s.keys ∧ t.cfg = s.cfg ∧ (s.redraw = true → t.redraw = true)

/-- 20_memory.md R44, R46 (the spec's decision D5): no step changes a byte of the glyph table. -/
def Obligations.GlyphTableIsImmutable : Prop :=
  ∀ (s t : State) (a : Nat), Memory.wf s.cfg s.mem → step s = .next t → InGlyphTable s.cfg a →
    t.readByte a = s.readByte a

/-- 44_display.md R121: a program learns about the display only through VF after Dxyn. An instruction run on two states that
differ in the display alone leaves equal registers but VF, and VF too unless it is Dxyn, and equal everything else but the
display. -/
def Obligations.DisplayIsSeenOnlyThroughVF : Prop :=
  ∀ (s t : State) (i : Instr) (d : Display), exec i s = .next t →
    ∃ t', exec i { s with display := d } = .next t' ∧ (∀ r, r ≠ VF → t'.getV r = t.getV r) ∧
      ((∀ x y n, i ≠ .drw x y n) → t'.getV VF = t.getV VF) ∧
      t' = { t with v := t'.v, display := t'.display }

/-- 10_state.md R29 (the spec's decision D28): the stack entries not in use cannot be observed. Two states that agree but for
them step to states that agree but for them. -/
def Obligations.UnusedStackEntriesAreNotObservable : Prop :=
  ∀ s t s' : State, SameUsedStack s t → step s = .next s' → ∃ t', step t = .next t' ∧ SameUsedStack s' t'

/-! ## Control flow -/

/-- 41_control_flow.md R87, R93: a jump sets PC to nnn, or to nnn plus V0, whatever x is. -/
def Obligations.JumpsSetThePC : Prop :=
  ∀ (nnn : Addr12) (s : State),
    (∃ t, exec (.jp nnn) s = .next t ∧ t.pc.toNat = nnn.toNat ∧ Unchanged [.pc] [] s t) ∧
    (∃ t, exec (.jpV0 nnn) s = .next t ∧ t.pc.toNat = nnn.toNat + (s.getV 0).toNat ∧ Unchanged [.pc] [] s t)

/-- 41_control_flow.md R88 (the failed cycle: the spec's decisions D9, D10): a call pushes PC, the address of the instruction
after it, and jumps; at depth 16 its cycle fails. -/
def Obligations.CallPushesTheReturnAddress : Prop :=
  ∀ (nnn : Addr12) (s : State),
    (s.sp.val < 16 → ∃ t, exec (.call nnn) s = .next t ∧ t.pc.toNat = nnn.toNat ∧ t.sp.val = s.sp.val + 1 ∧
      (∀ k : Fin 16, t.stack[k] = if k.val = s.sp.val then s.pc else s.stack[k]) ∧ Unchanged [.pc, .stack] [] s t) ∧
    (s.sp.val = 16 → exec (.call nnn) s = .next (failedExec s (.call nnn) .stackOverflow none none))

/-- 41_control_flow.md R86 (the failed cycle: the spec's decisions D9, D10): a return pops the top of the stack into PC; on an
empty stack its cycle fails. -/
def Obligations.ReturnPopsTheStack : Prop :=
  ∀ s : State,
    (0 < s.sp.val → ∃ t, exec .ret s = .next t ∧ t.sp.val + 1 = s.sp.val ∧
      (∀ k : Fin 16, k.val + 1 = s.sp.val → t.pc = s.stack[k]) ∧
      (∀ k : Fin 16, k.val < t.sp.val → t.stack[k] = s.stack[k]) ∧ Unchanged [.pc, .stack] [] s t) ∧
    (s.sp.val = 0 → exec .ret s = .next (failedExec s .ret .stackUnderflow none none))

/-- 10_state.md R29: the call stack is last in, first out. Addresses pushed within depth 16 pop in reverse order and restore
the entries in use; one push too many overflows, one pop too many underflows. -/
def Obligations.CallStackIsLastInFirstOut : Prop :=
  ∀ (s : State) (addrs : List Word),
    (s.sp.val + addrs.length ≤ 16 → ∃ t u, pushAll s addrs = .ok t ∧ popAll t addrs.length = .ok (addrs.reverse, u) ∧
      u.sp = s.sp ∧ (∀ k : Fin 16, k.val < s.sp.val → u.stack[k] = s.stack[k]) ∧ Unchanged [.stack] [] s u) ∧
    (16 < s.sp.val + addrs.length → pushAll s addrs = .error (.plain .stackOverflow)) ∧
    (∀ n, s.sp.val < n → popAll s n = .error (.plain .stackUnderflow))

/-- 41_control_flow.md R89 to R92: each comparison skips two bytes exactly when its condition holds, and changes nothing
else. -/
def Obligations.ComparisonsSkip : Prop :=
  ∀ (x y : Reg) (nn : Byte) (s : State),
    (∃ t, exec (.seImm x nn) s = .next t ∧ t.pc = (if s.getV x = nn then s.pc + 2 else s.pc) ∧
      Unchanged [.pc] [] s t) ∧
    (∃ t, exec (.sneImm x nn) s = .next t ∧ t.pc = (if s.getV x = nn then s.pc else s.pc + 2) ∧
      Unchanged [.pc] [] s t) ∧
    (∃ t, exec (.seReg x y) s = .next t ∧ t.pc = (if s.getV x = s.getV y then s.pc + 2 else s.pc) ∧
      Unchanged [.pc] [] s t) ∧
    (∃ t, exec (.sneReg x y) s = .next t ∧ t.pc = (if s.getV x = s.getV y then s.pc else s.pc + 2) ∧
      Unchanged [.pc] [] s t)

/-! ## Registers and arithmetic -/

/-- 42_alu.md R96, R98: an immediate or another register is assigned to Vx; no flag is written. -/
def Obligations.AssignmentsSetTheRegister : Prop :=
  ∀ (x y : Reg) (nn : Byte) (s : State),
    (∃ t, exec (.ldImm x nn) s = .next t ∧ t.getV x = nn ∧ Unchanged [] [x] s t) ∧
    (∃ t, exec (.ldReg x y) s = .next t ∧ t.getV x = s.getV y ∧ Unchanged [] [x] s t)

/-- 42_alu.md R97 ("no flag is written" is the spec's inference there): 7xnn adds modulo 256 and writes no flag. -/
def Obligations.AddImmediateWraps : Prop :=
  ∀ (x : Reg) (nn : Byte) (s : State), ∃ t, exec (.addImm x nn) s = .next t ∧
    (t.getV x).toNat = ((s.getV x).toNat + nn.toNat) % 256 ∧ Unchanged [] [x] s t

/-- 42_alu.md R99 to R101 (LOGIC_CLEARS_VF is the spec's decision D15; this holds for both its values): OR, AND and XOR bit by
bit; VF is cleared afterwards exactly when LOGIC_CLEARS_VF is true. -/
def Obligations.LogicOperatesBitwise : Prop :=
  ∀ (x y : Reg) (s : State) (f : Bool → Bool → Bool) (i : Instr),
    (i = .orReg x y ∧ f = or) ∨ (i = .andReg x y ∧ f = and) ∨ (i = .xorReg x y ∧ f = xor) →
    ∃ t, exec i s = .next t ∧
      (x ≠ VF ∨ s.cfg.logicClearsVF = false →
        ∀ j < 8, (t.getV x).getLsbD j = f ((s.getV x).getLsbD j) ((s.getV y).getLsbD j)) ∧
      (s.cfg.logicClearsVF = true → t.getV VF = 0) ∧
      Unchanged [] (if s.cfg.logicClearsVF then [x, VF] else [x]) s t

/-- 42_alu.md R102, R95 (the flag wins when x = F: the spec's decision D13): add modulo 256, VF the carry. -/
def Obligations.AddSetsTheCarry : Prop :=
  ∀ (x y : Reg) (s : State), ∃ t, exec (.addReg x y) s = .next t ∧
    (x ≠ VF → (t.getV x).toNat = ((s.getV x).toNat + (s.getV y).toNat) % 256) ∧
    (t.getV VF).toNat = (if 255 < (s.getV x).toNat + (s.getV y).toNat then 1 else 0) ∧ Unchanged [] [x, VF] s t

/-- 42_alu.md R103, R105, R95 (no borrow at equality: the spec's decision D16; the flag wins when x = F: D13): both
subtractions modulo 256, VF 1 exactly when there is no borrow. -/
def Obligations.SubtractionsSetNoBorrow : Prop :=
  ∀ (x y : Reg) (s : State),
    (∃ t, exec (.subReg x y) s = .next t ∧
      (x ≠ VF → (t.getV x).toNat = (256 + (s.getV x).toNat - (s.getV y).toNat) % 256) ∧
      (t.getV VF).toNat = (if (s.getV y).toNat ≤ (s.getV x).toNat then 1 else 0) ∧ Unchanged [] [x, VF] s t) ∧
    (∃ t, exec (.subnReg x y) s = .next t ∧
      (x ≠ VF → (t.getV x).toNat = (256 + (s.getV y).toNat - (s.getV x).toNat) % 256) ∧
      (t.getV VF).toNat = (if (s.getV x).toNat ≤ (s.getV y).toNat then 1 else 0) ∧ Unchanged [] [x, VF] s t)

/-- 42_alu.md R104, R106, R95 (SHIFT_SOURCE is the spec's decision D14; this holds for both its values; the flag wins when
x = F: D13): the shifts by one of the register SHIFT_SOURCE names, VF the bit shifted out. -/
def Obligations.ShiftsSetTheBitShiftedOut : Prop :=
  ∀ (x y : Reg) (s : State) (v : Nat),
    v = (s.getV (if s.cfg.shiftSource = .vx then x else y)).toNat →
    (∃ t, exec (.shr x y) s = .next t ∧ (x ≠ VF → (t.getV x).toNat = v / 2) ∧ (t.getV VF).toNat = v % 2 ∧
      Unchanged [] [x, VF] s t) ∧
    (∃ t, exec (.shl x y) s = .next t ∧ (x ≠ VF → (t.getV x).toNat = v * 2 % 256) ∧
      (t.getV VF).toNat = v / 128 ∧ Unchanged [] [x, VF] s t)

/-- 42_alu.md R107 (the draw: the spec's decision D19, log entry 3): Vx is a random byte, a free value of which nothing is
assumed, masked with nn; the count of draws is one more, so the next draw is another free value. -/
def Obligations.RandomByteIsMasked : Prop :=
  ∀ (x : Reg) (nn : Byte) (s : State), ∃ t, exec (.rnd x nn) s = .next t ∧
    (∀ j < 8, (t.getV x).getLsbD j = ((Config.randomByte s.draws).getLsbD j && nn.getLsbD j)) ∧
    t.draws = s.draws + 1 ∧ Unchanged [.draws] [x] s t

/-! ## The address register and memory -/

/-- 43_index_memory.md R110: Annn sets I to nnn. -/
def Obligations.LoadAddressSetsI : Prop :=
  ∀ (nnn : Addr12) (s : State), ∃ t, exec (.ldI nnn) s = .next t ∧ t.i.toNat = nnn.toNat ∧ Unchanged [.i] [] s t

/-- 43_index_memory.md R111 (the wrap: the spec's decision D18): Fx1E adds Vx to I modulo 2^16 and writes no flag. -/
def Obligations.AddToAddressWraps : Prop :=
  ∀ (x : Reg) (s : State), ∃ t, exec (.addIVx x) s = .next t ∧
    t.i.toNat = (s.i.toNat + (s.getV x).toNat) % 65536 ∧ Unchanged [.i] [] s t

/-- 43_index_memory.md R112, 20_memory.md R44 (GLYPH_BASE is the spec's decision D3; this holds for every legal value): Fx29
points I at the glyph of the low nibble of Vx. -/
def Obligations.GlyphAddressIsSet : Prop :=
  ∀ (x : Reg) (s : State), s.cfg.WellFormed → ∃ t, exec (.ldFVx x) s = .next t ∧
    t.i.toNat = s.cfg.glyphBase + 5 * ((s.getV x).toNat % 16) ∧ Unchanged [.i] [] s t

/-- 43_index_memory.md R113 (I unchanged: the spec's decision D17): the decimal digits of Vx at I, I + 1 and I + 2; every
other byte, and I, unchanged. -/
def Obligations.DecimalDigitsAreStored : Prop :=
  ∀ (x : Reg) (s : State), Memory.wf s.cfg s.mem → StoreAllowed s 3 → ∃ t, exec (.ldBVx x) s = .next t ∧
    (t.readByte s.i.toNat).toNat = (s.getV x).toNat / 100 ∧
    (t.readByte (s.i.toNat + 1)).toNat = (s.getV x).toNat / 10 % 10 ∧
    (t.readByte (s.i.toNat + 2)).toNat = (s.getV x).toNat % 10 ∧
    (∀ a, (a < s.i.toNat ∨ s.i.toNat + 3 ≤ a) → t.readByte a = s.readByte a) ∧
    Memory.wf t.cfg t.mem ∧ Unchanged [.memory] [] s t

/-- 43_index_memory.md R114 (I unchanged: the spec's decision D17): V0 to Vx at I upward; every other byte, and I,
unchanged. -/
def Obligations.RegisterBlockIsStored : Prop :=
  ∀ (x : Reg) (s : State), Memory.wf s.cfg s.mem → StoreAllowed s (x.val + 1) → ∃ t, exec (.ldMemVx x) s = .next t ∧
    (∀ r, r ≤ x → t.readByte (s.i.toNat + r.val) = s.getV r) ∧
    (∀ a, (a < s.i.toNat ∨ s.i.toNat + (x.val + 1) ≤ a) → t.readByte a = s.readByte a) ∧
    Memory.wf t.cfg t.mem ∧ Unchanged [.memory] [] s t

/-- 43_index_memory.md R115 (I unchanged: the spec's decision D17): V0 to Vx from the bytes at I upward; the glyph table may
be read; every other register, and I, unchanged. -/
def Obligations.RegisterBlockIsLoaded : Prop :=
  ∀ (x : Reg) (s : State), s.i.toNat + x.val ≤ 0xFFF → ∃ t, exec (.ldVxMem x) s = .next t ∧
    (∀ r, r ≤ x → t.getV r = s.readByte (s.i.toNat + r.val)) ∧
    Unchanged [] ((List.finRange 16).filter fun r => r ≤ x) s t

/-- 43_index_memory.md R109, 20_memory.md R46, R47 (the spec's decisions D5, D9, D12): an instruction that accesses bytes beyond
memory fails its cycle with the lowest such address; otherwise, one that would write into the glyph table fails with the
lowest such address. Nothing is read, written or drawn. -/
def Obligations.AccessChecksFailTheCycle : Prop :=
  ∀ (s : State) (i : Instr), 0 < accessedBytes i →
    (0xFFF < s.i.toNat + accessedBytes i - 1 →
      exec i s = .next (failedExec s i .outOfBoundsMemoryAccess (some (max s.i.toNat 0x1000)) none)) ∧
    (∀ g, WritesMemory i → s.i.toNat + accessedBytes i - 1 ≤ 0xFFF → s.i.toNat ≤ g →
      g < s.i.toNat + accessedBytes i → InGlyphTable s.cfg g →
      (∀ a, s.i.toNat ≤ a → a < g → ¬ InGlyphTable s.cfg a) →
      exec i s = .next (failedExec s i .glyphTableWrite (some g) none))

/-- 43_index_memory.md R116 ("whenever the store succeeds" is the spec's inference): V0 to Vx stored at I and loaded back from
I, whatever the registers and other items have become in between, restores them. -/
def Obligations.StoreThenLoadRestoresRegisters : Prop :=
  ∀ (x : Reg) (s t u : State), Memory.wf s.cfg s.mem → s.state ≠ .halted → exec (.ldMemVx x) s = .next t →
    t.state ≠ .halted → u.mem = t.mem → u.i = t.i → u.cfg = t.cfg →
    ∃ w, exec (.ldVxMem x) u = .next w ∧ w.state = u.state ∧ ∀ r, r ≤ x → w.getV r = s.getV r

/-! ## The display -/

/-- 44_display.md R117: every cell is false, whatever the display was, and a redraw is requested. -/
def Obligations.ClearDisplayClearsEveryCell : Prop :=
  ∀ s : State, ∃ t, exec .cls s = .next t ∧ (∀ X Y, t.display.cell X Y = false) ∧ t.redraw = true ∧
    Unchanged [.display, .redraw] [] s t

/-- 44_display.md R118 to R120 (Vx and Vy sampled before VF is written: the spec's decision D13; the redraw flag always set:
D22): the loop of Dxyn XORs the sprite into the display, each pixel into the cell it wraps to, and VF is 1 exactly when a set
pixel meets a set cell, else 0. -/
def Obligations.DrawXorsTheSprite : Prop :=
  ∀ (x y : Reg) (n : RowCount) (s : State), n.val = 0 ∨ s.i.toNat + n.val - 1 ≤ 0xFFF →
    ∃ t, exec (.drw x y n) s = .next t ∧
      (∀ X Y, t.display.cell X Y = true ↔
        Xor (s.display.cell X Y = true) (SpriteSets s (s.getV x) (s.getV y) n X Y)) ∧
      ((∃ X Y, SpriteSets s (s.getV x) (s.getV y) n X Y ∧ s.display.cell X Y = true) → t.getV VF = 1) ∧
      ((∀ X Y, SpriteSets s (s.getV x) (s.getV y) n X Y → s.display.cell X Y = false) → t.getV VF = 0) ∧
      t.redraw = true ∧ Unchanged [.display, .redraw] [VF] s t

/-- 44_display.md R119, drawing the same sprite at the same place twice: the display is restored, and VF after the second
draw is 1 exactly when a set bit of the sprite fell on a cell that was clear before the first, else 0. Where all those cells
were clear, it is 1 exactly when the sprite has a set bit, as the last sentence of R119 says; elsewhere that sentence, the
spec's inference, contradicts R118, which wins (log entry 22). -/
def Obligations.DrawTwiceRestoresTheDisplay : Prop :=
  ∀ (x y : Reg) (n : RowCount) (s t u : State), n.val = 0 ∨ s.i.toNat + n.val - 1 ≤ 0xFFF →
    exec (.drw x y n) s = .next t → u.display = t.display → u.mem = s.mem → u.i = s.i → u.cfg = s.cfg →
    u.getV x = s.getV x → u.getV y = s.getV y →
    ∃ w, exec (.drw x y n) u = .next w ∧ w.display = s.display ∧
      (w.getV VF = 0 ∨ w.getV VF = 1) ∧
      (w.getV VF = 1 ↔ ∃ X Y, SpriteSets s (s.getV x) (s.getV y) n X Y ∧ s.display.cell X Y = false) ∧
      ((∀ X Y, SpriteSets s (s.getV x) (s.getV y) n X Y → s.display.cell X Y = false) →
        (w.getV VF = 1 ↔ ∃ r < n.val, s.readByte (s.i.toNat + r) ≠ 0))

/-! ## Keys and timers -/

/-- 45_keys_timers.md R123, R124: when Vx names a key, 0x0 to 0xF, Ex9E skips exactly when that key is down and ExA1 exactly
when it is up; nothing else changes. -/
def Obligations.KeyTestsSkip : Prop :=
  ∀ (x : Reg) (s : State) (k : Fin 16), (s.getV x).toNat = k.val →
    (∃ t, exec (.skp x) s = .next t ∧ t.pc = (if s.keyDown k = true then s.pc + 2 else s.pc) ∧
      Unchanged [.pc] [] s t) ∧
    (∃ t, exec (.sknp x) s = .next t ∧ t.pc = (if s.keyDown k = true then s.pc else s.pc + 2) ∧
      Unchanged [.pc] [] s t)

/-- 45_keys_timers.md R122 (the spec's decisions D21, D9, D10): Ex9E and ExA1 with a value of Vx above 0x0F, which names no
key, fail their cycle with KeyIndexOutOfRange and that value. -/
def Obligations.KeyIndexAboveFFailsTheCycle : Prop :=
  ∀ (x : Reg) (s : State), 0x0F < (s.getV x).toNat →
    exec (.skp x) s = .next (failedExec s (.skp x) .keyIndexOutOfRange none (some (s.getV x).toNat)) ∧
    exec (.sknp x) s = .next (failedExec s (.sknp x) .keyIndexOutOfRange none (some (s.getV x).toNat))

/-- 45_keys_timers.md R125 (the latch: the spec's decision D20): Fx0A latches x and enters AWAITING_KEY, and writes no
register. -/
def Obligations.KeyWaitBegins : Prop :=
  ∀ (x : Reg) (s : State), ∃ t, exec (.ldVxK x) s = .next t ∧ t.state = .awaitingKey ∧ t.waitReg = x ∧
    Unchanged [.state, .waitReg] [] s t

/-- 45_keys_timers.md R126 to R128: Vx from DT, DT from Vx, ST from Vx. -/
def Obligations.TimersAreTransferred : Prop :=
  ∀ (x : Reg) (s : State),
    (∃ t, exec (.ldVxDt x) s = .next t ∧ t.getV x = s.dt ∧ Unchanged [] [x] s t) ∧
    (∃ t, exec (.ldDtVx x) s = .next t ∧ t.dt = s.getV x ∧ Unchanged [.dt] [] s t) ∧
    (∃ t, exec (.ldStVx x) s = .next t ∧ t.st = s.getV x ∧ Unchanged [.st] [] s t)

/-! ## The host's operations -/

/-- 60_exceptions.md R137, R138 (acting in every state: the spec's decision D23): tick() lowers each timer by one, not below
0, and touches nothing else; the sound level is ST > 0. -/
def Obligations.TickCountsDown : Prop :=
  ∀ s : State, (tick s).dt.toNat = s.dt.toNat - 1 ∧ (tick s).st.toNat = s.st.toNat - 1 ∧
    Unchanged [.dt, .st] [] s (tick s) ∧ (isSoundActive (tick s) = true ↔ 1 < s.st.toNat)

/-- 60_exceptions.md R140 (the refusal: the spec's decision D27): a key event of a code 0x0 to 0xF sets that key's state and
nothing else; a code above has no meaning. -/
def Obligations.KeyEventsSetTheKey : Prop :=
  ∀ (u : Session) (code : Nat) (down : Bool) (op : HostOp),
    (op = .setKeyDown code ∧ down = true) ∨ (op = .setKeyUp code ∧ down = false) →
    (∀ k : Fin 16, k.val = code → ∃ t, u.perform op = .next ⟨t, u.loadable⟩ ∧ t.keyDown k = down ∧
      (∀ j, j ≠ k → t.keyDown j = u.machine.keyDown j) ∧ Unchanged [.keys] [] u.machine t) ∧
    (0xF < code → u.perform op = .refused (.keyCodeOutOfRange code))

/-- 60_exceptions.md R141 to R143 (the names of the operations: the spec's decisions D11, D22): the host's five reads reply
with the item they name and change nothing; clearRedraw() clears the redraw level and nothing else. -/
def Obligations.ReadsChangeNothing : Prop :=
  ∀ u : Session,
    (∀ op ∈ [HostOp.readDisplay, .isSoundActive, .readRedraw, .readState, .readErr], u.perform op = .next u) ∧
    u.machine.reply .readDisplay = .display u.machine.display ∧
    u.machine.reply .isSoundActive = .level (decide (u.machine.st ≠ 0)) ∧
    u.machine.reply .readRedraw = .level u.machine.redraw ∧
    u.machine.reply .readState = .state u.machine.state ∧
    u.machine.reply .readErr = .err u.machine.err ∧
    ∃ t, u.perform .clearRedraw = .next ⟨t, u.loadable⟩ ∧ t.redraw = false ∧ Unchanged [.redraw] [] u.machine t

/-- 70_reset_and_hazards.md R149, R150 (`redraw`, `wait_reg` and `err` are the spec's decisions D22, D20, D11): after reset(),
in every state, each item holds its reset value, and memory is zero but for the glyph table. The parameters and the count of
draws, which are the model's own, stay (log entries 3 and 4). -/
def Obligations.ResetSetsEveryItem : Prop :=
  ∀ s t : State, t = resetMachine s →
    (∀ r, t.getV r = 0) ∧ t.i = 0 ∧ t.pc = 0 ∧ t.sp = 0 ∧ (∀ k : Fin 16, t.stack[k] = 0) ∧ t.dt = 0 ∧ t.st = 0 ∧
    (∀ X Y, t.display.cell X Y = false) ∧ (∀ k, t.keyDown k = false) ∧
    (∀ a < 0x1000, t.readByte a =
      if InGlyphTable s.cfg a then s.cfg.glyphBytes.getD (a - s.cfg.glyphBase) 0 else 0) ∧
    t.state = .running ∧ t.waitReg = 0 ∧ t.redraw = false ∧ t.err = none ∧ t.cfg = s.cfg ∧ t.draws = s.draws

/-- 70_reset_and_hazards.md R151 (the failure's effect: the spec's decisions D10, D25): an image that fits is copied to 0x200
upward, PC becomes 0x200 and I becomes 0; one that does not fit is ROMTooLarge, recorded with its length, and the machine is
HALTED with nothing else changed. -/
def Obligations.LoadProgramCopiesTheImage : Prop :=
  ∀ (s t : State) (image : List Byte), Memory.wf s.cfg s.mem → t = loadProgram s image →
    (image.length ≤ 0xE00 → loadResult image = .ok ∧
      (∀ (j : Nat) (h : j < image.length), t.readByte (0x200 + j) = image[j]) ∧
      (∀ a, (a < 0x200 ∨ 0x200 + image.length ≤ a) → t.readByte a = s.readByte a) ∧
      t.pc = 0x200 ∧ t.i = 0 ∧ Unchanged [.memory, .pc, .i] [] s t) ∧
    (0xE00 < image.length → loadResult image = .fail .romTooLarge ∧
      t = { s with err := some ⟨.romTooLarge, none, none, none, some image.length⟩, state := .halted })

/-- 70_reset_and_hazards.md R152 (the refusal: the spec's decision D26): after a step() or a loadProgram(), with no reset()
since, a loadProgram has no meaning, whatever happened in between. -/
def Obligations.LoadOutOfOrderHasNoMeaning : Prop :=
  ∀ (u u' : Session) (ops : List HostOp) (image : List Byte), (∀ op ∈ ops, op ≠ .reset) →
    (∃ op ∈ ops, op = .step ∨ ∃ earlier, op = .loadProgram earlier) → u.run ops = .next u' →
    u'.perform (.loadProgram image) = .refused .loadOutOfOrder

/-- 70_reset_and_hazards.md R153, R149, R151: reset() and then loadProgram() of an image that fits always have a meaning, and
leave the launch state: RUNNING at 0x200 with the registers, the depth and the timers 0, the display clear, the glyph table
and the image in memory, and no load legal. -/
def Obligations.BootLeavesTheLaunchState : Prop :=
  ∀ (v : Session) (image : List Byte), image.length ≤ 0xE00 → v.machine.cfg.WellFormed →
    ∃ t, v.run [.reset, .loadProgram image] = .next ⟨t, false⟩ ∧
      t.state = .running ∧ t.pc = 0x200 ∧ (∀ r, t.getV r = 0) ∧ t.i = 0 ∧ t.sp = 0 ∧ t.dt = 0 ∧ t.st = 0 ∧
      (∀ X Y, t.display.cell X Y = false) ∧
      (∀ j < 80, t.readByte (t.cfg.glyphBase + j) = t.cfg.glyphBytes.getD j 0) ∧
      (∀ (j : Nat) (h : j < image.length), t.readByte (0x200 + j) = image[j]) ∧
      t.cfg = v.machine.cfg ∧ t.Inv

/-- 70_reset_and_hazards.md R155 (the definition of a run: the spec's decision D29; operations that are always legal: its
decisions D26, D27): there is no internal termination condition. Every infinite sequence of operations that are always legal
is an infinite run from every launch state, and every beginning of an infinite run is a finite run that ends where the
infinite one is. -/
def Obligations.RunsNeedNotEnd : Prop :=
  (∀ (u₀ : Session) (ops : Nat → HostOp), u₀.Launched → (∀ n, AlwaysLegal (ops n)) →
    ∃ u, u 0 = u₀ ∧ Session.InfiniteRun u ops) ∧
  (∀ (u : Nat → Session) (ops : Nat → HostOp), Session.InfiniteRun u ops →
    ∀ n, Session.FiniteRun (u 0) (firstOps ops n) (u n))

/-- 70_reset_and_hazards.md R155, 40_cycle.md R78 (the spec's decision D29): a run that has ended in error stays so, whatever
the host does, as long as it does not reset, in a finite and in an infinite run. -/
def Obligations.EndInErrorLastsUntilReset : Prop :=
  (∀ (u u' : Session) (ops : List HostOp), (∀ op ∈ ops, op ≠ .reset) → EndedInError u.machine → u.run ops = .next u' →
    EndedInError u'.machine) ∧
  (∀ (u : Nat → Session) (ops : Nat → HostOp) (n m : Nat), Session.RunsForever u ops → n ≤ m →
    (∀ k, n ≤ k → k < m → ops k ≠ .reset) → EndedInError (u n).machine → EndedInError (u m).machine)
end

