-- ==== Sys2Proof/Laws/Decode.lean ====
section
/-! SUPPORT. Encoding: the number each format builds (spec 30_encoding.md R60), the fields read back from it (R59), bytes and
words (20_memory.md R49), and the masks of the opcode map in terms of the fields (R63). -/

namespace Sys2Proof

/-! ## The formats as numbers -/

theorem encodeNnn_toNat {f : Nat} (hf : f < 16) (nnn : Addr12) :
    (encodeNnn f nnn).toNat = f * 0x1000 + nnn.toNat := by
  have := nnn.isLt
  simp only [encodeNnn, BitVec.toNat_ofNat]
  omega

theorem encodeXnn_toNat {f : Nat} (hf : f < 16) (x : Reg) (nn : Byte) :
    (encodeXnn f x nn).toNat = f * 0x1000 + x.val * 0x100 + nn.toNat := by
  have := nn.isLt
  have := x.isLt
  simp only [encodeXnn, BitVec.toNat_ofNat]
  omega

theorem encodeXyn_toNat {f n : Nat} (hf : f < 16) (hn : n < 16) (x y : Reg) :
    (encodeXyn f x y n).toNat = f * 0x1000 + x.val * 0x100 + y.val * 0x10 + n := by
  have := x.isLt
  have := y.isLt
  simp only [encodeXyn, BitVec.toNat_ofNat]
  omega

theorem encodeX_toNat {f low : Nat} (hf : f < 16) (hl : low < 0x100) (x : Reg) :
    (encodeX f x low).toNat = f * 0x1000 + x.val * 0x100 + low := by
  have := x.isLt
  simp only [encodeX, BitVec.toNat_ofNat]
  omega

/-! ## The fields as numbers -/

theorem familyOf_eq (op : Word) : familyOf op = op.toNat / 0x1000 := by
  have := op.isLt
  simp only [familyOf, bitField]
  omega

theorem xOf_val (op : Word) : (xOf op).val = op.toNat / 0x100 % 16 := rfl

theorem yOf_val (op : Word) : (yOf op).val = op.toNat / 0x10 % 16 := rfl

theorem nOf_val (op : Word) : (nOf op).val = op.toNat % 16 := by simp [nOf, bitField]

theorem lowNibble_eq (op : Word) : bitField op 3 0 = op.toNat % 16 := by simp [bitField]

theorem lowByte_eq (op : Word) : bitField op 7 0 = op.toNat % 0x100 := by simp [bitField]

theorem nnOf_toNat (op : Word) : (nnOf op).toNat = op.toNat % 0x100 := by
  simp [nnOf, lowByte_eq]

theorem nnnOf_toNat (op : Word) : (nnnOf op).toNat = op.toNat % 0x1000 := by
  simp only [nnnOf, bitField, BitVec.toNat_ofNat]
  omega

/-! ## The fields read back from a format -/

/-- Family and nnn of F_NNN. -/
theorem fields_encodeNnn {f : Nat} (hf : f < 16) (nnn : Addr12) :
    familyOf (encodeNnn f nnn) = f ∧ nnnOf (encodeNnn f nnn) = nnn := by
  have h := encodeNnn_toNat hf nnn
  have := nnn.isLt
  refine ⟨by rw [familyOf_eq]; omega, BitVec.eq_of_toNat_eq ?_⟩
  rw [nnnOf_toNat]; omega

/-- Family, x and nn of F_XNN. -/
theorem fields_encodeXnn {f : Nat} (hf : f < 16) (x : Reg) (nn : Byte) :
    familyOf (encodeXnn f x nn) = f ∧ xOf (encodeXnn f x nn) = x ∧ nnOf (encodeXnn f x nn) = nn := by
  have h := encodeXnn_toNat hf x nn
  have := nn.isLt
  have := x.isLt
  refine ⟨by rw [familyOf_eq]; omega, Fin.ext ?_, BitVec.eq_of_toNat_eq ?_⟩
  · rw [xOf_val]; omega
  · rw [nnOf_toNat]; omega

/-- Family, x, y and n of F_XY and F_XYN. -/
theorem fields_encodeXyn {f n : Nat} (hf : f < 16) (hn : n < 16) (x y : Reg) :
    familyOf (encodeXyn f x y n) = f ∧ xOf (encodeXyn f x y n) = x ∧ yOf (encodeXyn f x y n) = y ∧
      bitField (encodeXyn f x y n) 3 0 = n := by
  have h := encodeXyn_toNat hf hn x y
  have := x.isLt
  have := y.isLt
  refine ⟨by rw [familyOf_eq]; omega, Fin.ext ?_, Fin.ext ?_, ?_⟩
  · rw [xOf_val]; omega
  · rw [yOf_val]; omega
  · rw [lowNibble_eq]; omega

/-- Family, x and low byte of F_X. -/
theorem fields_encodeX {f low : Nat} (hf : f < 16) (hl : low < 0x100) (x : Reg) :
    familyOf (encodeX f x low) = f ∧ xOf (encodeX f x low) = x ∧ bitField (encodeX f x low) 7 0 = low := by
  have h := encodeX_toNat hf hl x
  have := x.isLt
  refine ⟨by rw [familyOf_eq]; omega, Fin.ext ?_, ?_⟩
  · rw [xOf_val]; omega
  · rw [lowByte_eq]; omega

/-! ## A format built from the fields of a word -/

theorem encodeNnn_fields {op : Word} {f : Nat} (h : familyOf op = f) : encodeNnn f (nnnOf op) = op := by
  have := op.isLt
  rw [familyOf_eq] at h
  apply BitVec.eq_of_toNat_eq
  rw [encodeNnn_toNat (by omega), nnnOf_toNat]; omega

theorem encodeXnn_fields {op : Word} {f : Nat} (h : familyOf op = f) : encodeXnn f (xOf op) (nnOf op) = op := by
  have := op.isLt
  rw [familyOf_eq] at h
  apply BitVec.eq_of_toNat_eq
  rw [encodeXnn_toNat (by omega), nnOf_toNat, xOf_val]; omega

theorem encodeXyn_fields {op : Word} {f n : Nat} (h : familyOf op = f) (hn : bitField op 3 0 = n) :
    encodeXyn f (xOf op) (yOf op) n = op := by
  have := op.isLt
  rw [familyOf_eq] at h
  rw [lowNibble_eq] at hn
  apply BitVec.eq_of_toNat_eq
  rw [encodeXyn_toNat (by omega) (by omega), xOf_val, yOf_val]; omega

theorem encodeX_fields {op : Word} {f low : Nat} (h : familyOf op = f) (hl : bitField op 7 0 = low) :
    encodeX f (xOf op) low = op := by
  have := op.isLt
  rw [familyOf_eq] at h
  rw [lowByte_eq] at hl
  apply BitVec.eq_of_toNat_eq
  rw [encodeX_toNat (by omega) (by omega), xOf_val]; omega

/-! ## Bytes and words -/

/-- A word is its two bytes, most significant byte first (20_memory.md R49). -/
theorem wordOfBytes_toNat (hi lo : Byte) : (wordOfBytes hi lo).toNat = hi.toNat * 0x100 + lo.toNat := by
  have := lo.isLt
  rw [wordOfBytes, BitVec.toNat_append, Nat.shiftLeft_eq, Nat.mul_comm, ← Nat.two_pow_add_eq_or_of_lt this]

/-- Storing a word as bytes and reading it back gives the word. -/
theorem wordOfBytes_bytesOfWord (op : Word) : wordOfBytes (op.extractLsb' 8 8) (op.extractLsb' 0 8) = op := by
  apply BitVec.eq_of_toNat_eq
  have := op.isLt
  simp only [wordOfBytes_toNat, BitVec.extractLsb'_toNat, Nat.shiftRight_eq_div_pow]
  omega

/-- Decoding the stored bytes of a word is decoding the word. -/
theorem decodeBytes_bytesOfWord (op : Word) (rest : List Byte) :
    decodeBytes (bytesOfWord op ++ rest) = (decode op).map fun i => (i, rest) := by
  simp only [bytesOfWord, List.cons_append, List.nil_append, decodeBytes, wordOfBytes_bytesOfWord]
  cases decode op <;> rfl

/-! ## The masks of the opcode map (R63) -/

/-- A conjunction splits at bit `k`. -/
theorem land_split {k a b c d : Nat} (hb : b < 2 ^ k) (hd : d < 2 ^ k) :
    (2 ^ k * a + b) &&& (2 ^ k * c + d) = 2 ^ k * (a &&& c) + (b &&& d) := by
  apply Nat.eq_of_testBit_eq
  intro j
  rw [Nat.testBit_and, Nat.testBit_two_pow_mul_add _ hb, Nat.testBit_two_pow_mul_add _ hd,
    Nat.testBit_two_pow_mul_add _ (Nat.and_lt_two_pow _ hd)]
  split <;> simp

/-- Masking with 0xF000 keeps the family. -/
theorem toNat_mask_F000 (op : Word) : (op &&& (0xF000 : Word)).toNat = familyOf op * 0x1000 := by
  have h : op.toNat = 2 ^ 12 * (op.toNat / 0x1000) + op.toNat % 0x1000 := by omega
  have := op.isLt
  rw [BitVec.toNat_and, familyOf_eq, h, show (0xF000 : Word).toNat = 2 ^ 12 * (2 ^ 4 - 1) + 0 from rfl,
    land_split (by omega) (by omega), Nat.and_two_pow_sub_one_eq_mod]
  simp
  omega

/-- Masking with 0xF00F keeps the family and the low nibble. -/
theorem toNat_mask_F00F (op : Word) :
    (op &&& (0xF00F : Word)).toNat = familyOf op * 0x1000 + bitField op 3 0 := by
  have h : op.toNat = 2 ^ 12 * (op.toNat / 0x1000) + op.toNat % 0x1000 := by omega
  have := op.isLt
  rw [BitVec.toNat_and, familyOf_eq, lowNibble_eq, h,
    show (0xF00F : Word).toNat = 2 ^ 12 * (2 ^ 4 - 1) + (2 ^ 4 - 1) from rfl,
    land_split (by omega) (by omega), Nat.and_two_pow_sub_one_eq_mod, Nat.and_two_pow_sub_one_eq_mod]
  omega

/-- Masking with 0xF0FF keeps the family and the low byte. -/
theorem toNat_mask_F0FF (op : Word) :
    (op &&& (0xF0FF : Word)).toNat = familyOf op * 0x1000 + bitField op 7 0 := by
  have h : op.toNat = 2 ^ 12 * (op.toNat / 0x1000) + op.toNat % 0x1000 := by omega
  have := op.isLt
  rw [BitVec.toNat_and, familyOf_eq, lowByte_eq, h,
    show (0xF0FF : Word).toNat = 2 ^ 12 * (2 ^ 4 - 1) + (2 ^ 8 - 1) from rfl,
    land_split (by omega) (by omega), Nat.and_two_pow_sub_one_eq_mod, Nat.and_two_pow_sub_one_eq_mod]
  omega

/-- Masking with 0xFFFF keeps the word. -/
theorem mask_FFFF (op : Word) : op &&& (0xFFFF : Word) = op := BitVec.and_allOnes

end Sys2Proof
end

