-- ==== Sys2Proof/Laws/State.lean ====
section
/-! SUPPORT. What each named update does to each field of the state: one lemma per field and update, true by definition, so
that no proof unfolds a record update; and the accessors after an update. -/

namespace Sys2Proof.Machine

/-! ### `setV` -/

@[simp] theorem State.setV_v (s : State) (x : Reg) (b : Byte) : (s.setV x b).v = s.v.set x.val b x.isLt := rfl
@[simp] theorem State.setV_i (s : State) (x : Reg) (b : Byte) : (s.setV x b).i = s.i := rfl
@[simp] theorem State.setV_pc (s : State) (x : Reg) (b : Byte) : (s.setV x b).pc = s.pc := rfl
@[simp] theorem State.setV_sp (s : State) (x : Reg) (b : Byte) : (s.setV x b).sp = s.sp := rfl
@[simp] theorem State.setV_stack (s : State) (x : Reg) (b : Byte) : (s.setV x b).stack = s.stack := rfl
@[simp] theorem State.setV_dt (s : State) (x : Reg) (b : Byte) : (s.setV x b).dt = s.dt := rfl
@[simp] theorem State.setV_st (s : State) (x : Reg) (b : Byte) : (s.setV x b).st = s.st := rfl
@[simp] theorem State.setV_display (s : State) (x : Reg) (b : Byte) : (s.setV x b).display = s.display := rfl
@[simp] theorem State.setV_keys (s : State) (x : Reg) (b : Byte) : (s.setV x b).keys = s.keys := rfl
@[simp] theorem State.setV_mem (s : State) (x : Reg) (b : Byte) : (s.setV x b).mem = s.mem := rfl
@[simp] theorem State.setV_state (s : State) (x : Reg) (b : Byte) : (s.setV x b).state = s.state := rfl
@[simp] theorem State.setV_waitReg (s : State) (x : Reg) (b : Byte) : (s.setV x b).waitReg = s.waitReg := rfl
@[simp] theorem State.setV_redraw (s : State) (x : Reg) (b : Byte) : (s.setV x b).redraw = s.redraw := rfl
@[simp] theorem State.setV_err (s : State) (x : Reg) (b : Byte) : (s.setV x b).err = s.err := rfl
@[simp] theorem State.setV_draws (s : State) (x : Reg) (b : Byte) : (s.setV x b).draws = s.draws := rfl
@[simp] theorem State.setV_cfg (s : State) (x : Reg) (b : Byte) : (s.setV x b).cfg = s.cfg := rfl
@[simp] theorem State.keyDown_setV (s : State) (x : Reg) (b : Byte) (j : Fin 16) : (s.setV x b).keyDown j = s.keyDown j := rfl
@[simp] theorem State.readByte_setV (s : State) (x : Reg) (b : Byte) (adr : Nat) : (s.setV x b).readByte adr = s.readByte adr := rfl

/-! ### `setI` -/

@[simp] theorem State.setI_v (s : State) (a : Word) : (s.setI a).v = s.v := rfl
@[simp] theorem State.setI_i (s : State) (a : Word) : (s.setI a).i = a := rfl
@[simp] theorem State.setI_pc (s : State) (a : Word) : (s.setI a).pc = s.pc := rfl
@[simp] theorem State.setI_sp (s : State) (a : Word) : (s.setI a).sp = s.sp := rfl
@[simp] theorem State.setI_stack (s : State) (a : Word) : (s.setI a).stack = s.stack := rfl
@[simp] theorem State.setI_dt (s : State) (a : Word) : (s.setI a).dt = s.dt := rfl
@[simp] theorem State.setI_st (s : State) (a : Word) : (s.setI a).st = s.st := rfl
@[simp] theorem State.setI_display (s : State) (a : Word) : (s.setI a).display = s.display := rfl
@[simp] theorem State.setI_keys (s : State) (a : Word) : (s.setI a).keys = s.keys := rfl
@[simp] theorem State.setI_mem (s : State) (a : Word) : (s.setI a).mem = s.mem := rfl
@[simp] theorem State.setI_state (s : State) (a : Word) : (s.setI a).state = s.state := rfl
@[simp] theorem State.setI_waitReg (s : State) (a : Word) : (s.setI a).waitReg = s.waitReg := rfl
@[simp] theorem State.setI_redraw (s : State) (a : Word) : (s.setI a).redraw = s.redraw := rfl
@[simp] theorem State.setI_err (s : State) (a : Word) : (s.setI a).err = s.err := rfl
@[simp] theorem State.setI_draws (s : State) (a : Word) : (s.setI a).draws = s.draws := rfl
@[simp] theorem State.setI_cfg (s : State) (a : Word) : (s.setI a).cfg = s.cfg := rfl
@[simp] theorem State.getV_setI (s : State) (a : Word) (r : Reg) : (s.setI a).getV r = s.getV r := rfl
@[simp] theorem State.keyDown_setI (s : State) (a : Word) (j : Fin 16) : (s.setI a).keyDown j = s.keyDown j := rfl
@[simp] theorem State.readByte_setI (s : State) (a : Word) (adr : Nat) : (s.setI a).readByte adr = s.readByte adr := rfl

/-! ### `setPC` -/

@[simp] theorem State.setPC_v (s : State) (a : Word) : (s.setPC a).v = s.v := rfl
@[simp] theorem State.setPC_i (s : State) (a : Word) : (s.setPC a).i = s.i := rfl
@[simp] theorem State.setPC_pc (s : State) (a : Word) : (s.setPC a).pc = a := rfl
@[simp] theorem State.setPC_sp (s : State) (a : Word) : (s.setPC a).sp = s.sp := rfl
@[simp] theorem State.setPC_stack (s : State) (a : Word) : (s.setPC a).stack = s.stack := rfl
@[simp] theorem State.setPC_dt (s : State) (a : Word) : (s.setPC a).dt = s.dt := rfl
@[simp] theorem State.setPC_st (s : State) (a : Word) : (s.setPC a).st = s.st := rfl
@[simp] theorem State.setPC_display (s : State) (a : Word) : (s.setPC a).display = s.display := rfl
@[simp] theorem State.setPC_keys (s : State) (a : Word) : (s.setPC a).keys = s.keys := rfl
@[simp] theorem State.setPC_mem (s : State) (a : Word) : (s.setPC a).mem = s.mem := rfl
@[simp] theorem State.setPC_state (s : State) (a : Word) : (s.setPC a).state = s.state := rfl
@[simp] theorem State.setPC_waitReg (s : State) (a : Word) : (s.setPC a).waitReg = s.waitReg := rfl
@[simp] theorem State.setPC_redraw (s : State) (a : Word) : (s.setPC a).redraw = s.redraw := rfl
@[simp] theorem State.setPC_err (s : State) (a : Word) : (s.setPC a).err = s.err := rfl
@[simp] theorem State.setPC_draws (s : State) (a : Word) : (s.setPC a).draws = s.draws := rfl
@[simp] theorem State.setPC_cfg (s : State) (a : Word) : (s.setPC a).cfg = s.cfg := rfl
@[simp] theorem State.getV_setPC (s : State) (a : Word) (r : Reg) : (s.setPC a).getV r = s.getV r := rfl
@[simp] theorem State.keyDown_setPC (s : State) (a : Word) (j : Fin 16) : (s.setPC a).keyDown j = s.keyDown j := rfl
@[simp] theorem State.readByte_setPC (s : State) (a : Word) (adr : Nat) : (s.setPC a).readByte adr = s.readByte adr := rfl

/-! ### `setDT` -/

@[simp] theorem State.setDT_v (s : State) (b : Byte) : (s.setDT b).v = s.v := rfl
@[simp] theorem State.setDT_i (s : State) (b : Byte) : (s.setDT b).i = s.i := rfl
@[simp] theorem State.setDT_pc (s : State) (b : Byte) : (s.setDT b).pc = s.pc := rfl
@[simp] theorem State.setDT_sp (s : State) (b : Byte) : (s.setDT b).sp = s.sp := rfl
@[simp] theorem State.setDT_stack (s : State) (b : Byte) : (s.setDT b).stack = s.stack := rfl
@[simp] theorem State.setDT_dt (s : State) (b : Byte) : (s.setDT b).dt = b := rfl
@[simp] theorem State.setDT_st (s : State) (b : Byte) : (s.setDT b).st = s.st := rfl
@[simp] theorem State.setDT_display (s : State) (b : Byte) : (s.setDT b).display = s.display := rfl
@[simp] theorem State.setDT_keys (s : State) (b : Byte) : (s.setDT b).keys = s.keys := rfl
@[simp] theorem State.setDT_mem (s : State) (b : Byte) : (s.setDT b).mem = s.mem := rfl
@[simp] theorem State.setDT_state (s : State) (b : Byte) : (s.setDT b).state = s.state := rfl
@[simp] theorem State.setDT_waitReg (s : State) (b : Byte) : (s.setDT b).waitReg = s.waitReg := rfl
@[simp] theorem State.setDT_redraw (s : State) (b : Byte) : (s.setDT b).redraw = s.redraw := rfl
@[simp] theorem State.setDT_err (s : State) (b : Byte) : (s.setDT b).err = s.err := rfl
@[simp] theorem State.setDT_draws (s : State) (b : Byte) : (s.setDT b).draws = s.draws := rfl
@[simp] theorem State.setDT_cfg (s : State) (b : Byte) : (s.setDT b).cfg = s.cfg := rfl
@[simp] theorem State.getV_setDT (s : State) (b : Byte) (r : Reg) : (s.setDT b).getV r = s.getV r := rfl
@[simp] theorem State.keyDown_setDT (s : State) (b : Byte) (j : Fin 16) : (s.setDT b).keyDown j = s.keyDown j := rfl
@[simp] theorem State.readByte_setDT (s : State) (b : Byte) (adr : Nat) : (s.setDT b).readByte adr = s.readByte adr := rfl

/-! ### `setST` -/

@[simp] theorem State.setST_v (s : State) (b : Byte) : (s.setST b).v = s.v := rfl
@[simp] theorem State.setST_i (s : State) (b : Byte) : (s.setST b).i = s.i := rfl
@[simp] theorem State.setST_pc (s : State) (b : Byte) : (s.setST b).pc = s.pc := rfl
@[simp] theorem State.setST_sp (s : State) (b : Byte) : (s.setST b).sp = s.sp := rfl
@[simp] theorem State.setST_stack (s : State) (b : Byte) : (s.setST b).stack = s.stack := rfl
@[simp] theorem State.setST_dt (s : State) (b : Byte) : (s.setST b).dt = s.dt := rfl
@[simp] theorem State.setST_st (s : State) (b : Byte) : (s.setST b).st = b := rfl
@[simp] theorem State.setST_display (s : State) (b : Byte) : (s.setST b).display = s.display := rfl
@[simp] theorem State.setST_keys (s : State) (b : Byte) : (s.setST b).keys = s.keys := rfl
@[simp] theorem State.setST_mem (s : State) (b : Byte) : (s.setST b).mem = s.mem := rfl
@[simp] theorem State.setST_state (s : State) (b : Byte) : (s.setST b).state = s.state := rfl
@[simp] theorem State.setST_waitReg (s : State) (b : Byte) : (s.setST b).waitReg = s.waitReg := rfl
@[simp] theorem State.setST_redraw (s : State) (b : Byte) : (s.setST b).redraw = s.redraw := rfl
@[simp] theorem State.setST_err (s : State) (b : Byte) : (s.setST b).err = s.err := rfl
@[simp] theorem State.setST_draws (s : State) (b : Byte) : (s.setST b).draws = s.draws := rfl
@[simp] theorem State.setST_cfg (s : State) (b : Byte) : (s.setST b).cfg = s.cfg := rfl
@[simp] theorem State.getV_setST (s : State) (b : Byte) (r : Reg) : (s.setST b).getV r = s.getV r := rfl
@[simp] theorem State.keyDown_setST (s : State) (b : Byte) (j : Fin 16) : (s.setST b).keyDown j = s.keyDown j := rfl
@[simp] theorem State.readByte_setST (s : State) (b : Byte) (adr : Nat) : (s.setST b).readByte adr = s.readByte adr := rfl

/-! ### `setDisplay` -/

@[simp] theorem State.setDisplay_v (s : State) (d : Display) : (s.setDisplay d).v = s.v := rfl
@[simp] theorem State.setDisplay_i (s : State) (d : Display) : (s.setDisplay d).i = s.i := rfl
@[simp] theorem State.setDisplay_pc (s : State) (d : Display) : (s.setDisplay d).pc = s.pc := rfl
@[simp] theorem State.setDisplay_sp (s : State) (d : Display) : (s.setDisplay d).sp = s.sp := rfl
@[simp] theorem State.setDisplay_stack (s : State) (d : Display) : (s.setDisplay d).stack = s.stack := rfl
@[simp] theorem State.setDisplay_dt (s : State) (d : Display) : (s.setDisplay d).dt = s.dt := rfl
@[simp] theorem State.setDisplay_st (s : State) (d : Display) : (s.setDisplay d).st = s.st := rfl
@[simp] theorem State.setDisplay_display (s : State) (d : Display) : (s.setDisplay d).display = d := rfl
@[simp] theorem State.setDisplay_keys (s : State) (d : Display) : (s.setDisplay d).keys = s.keys := rfl
@[simp] theorem State.setDisplay_mem (s : State) (d : Display) : (s.setDisplay d).mem = s.mem := rfl
@[simp] theorem State.setDisplay_state (s : State) (d : Display) : (s.setDisplay d).state = s.state := rfl
@[simp] theorem State.setDisplay_waitReg (s : State) (d : Display) : (s.setDisplay d).waitReg = s.waitReg := rfl
@[simp] theorem State.setDisplay_redraw (s : State) (d : Display) : (s.setDisplay d).redraw = s.redraw := rfl
@[simp] theorem State.setDisplay_err (s : State) (d : Display) : (s.setDisplay d).err = s.err := rfl
@[simp] theorem State.setDisplay_draws (s : State) (d : Display) : (s.setDisplay d).draws = s.draws := rfl
@[simp] theorem State.setDisplay_cfg (s : State) (d : Display) : (s.setDisplay d).cfg = s.cfg := rfl
@[simp] theorem State.getV_setDisplay (s : State) (d : Display) (r : Reg) : (s.setDisplay d).getV r = s.getV r := rfl
@[simp] theorem State.keyDown_setDisplay (s : State) (d : Display) (j : Fin 16) : (s.setDisplay d).keyDown j = s.keyDown j := rfl
@[simp] theorem State.readByte_setDisplay (s : State) (d : Display) (adr : Nat) : (s.setDisplay d).readByte adr = s.readByte adr := rfl

/-! ### `setKey` -/

@[simp] theorem State.setKey_v (s : State) (k : Fin 16) (down : Bool) : (s.setKey k down).v = s.v := rfl
@[simp] theorem State.setKey_i (s : State) (k : Fin 16) (down : Bool) : (s.setKey k down).i = s.i := rfl
@[simp] theorem State.setKey_pc (s : State) (k : Fin 16) (down : Bool) : (s.setKey k down).pc = s.pc := rfl
@[simp] theorem State.setKey_sp (s : State) (k : Fin 16) (down : Bool) : (s.setKey k down).sp = s.sp := rfl
@[simp] theorem State.setKey_stack (s : State) (k : Fin 16) (down : Bool) : (s.setKey k down).stack = s.stack := rfl
@[simp] theorem State.setKey_dt (s : State) (k : Fin 16) (down : Bool) : (s.setKey k down).dt = s.dt := rfl
@[simp] theorem State.setKey_st (s : State) (k : Fin 16) (down : Bool) : (s.setKey k down).st = s.st := rfl
@[simp] theorem State.setKey_display (s : State) (k : Fin 16) (down : Bool) : (s.setKey k down).display = s.display := rfl
@[simp] theorem State.setKey_keys (s : State) (k : Fin 16) (down : Bool) : (s.setKey k down).keys = s.keys.set k.val down k.isLt := rfl
@[simp] theorem State.setKey_mem (s : State) (k : Fin 16) (down : Bool) : (s.setKey k down).mem = s.mem := rfl
@[simp] theorem State.setKey_state (s : State) (k : Fin 16) (down : Bool) : (s.setKey k down).state = s.state := rfl
@[simp] theorem State.setKey_waitReg (s : State) (k : Fin 16) (down : Bool) : (s.setKey k down).waitReg = s.waitReg := rfl
@[simp] theorem State.setKey_redraw (s : State) (k : Fin 16) (down : Bool) : (s.setKey k down).redraw = s.redraw := rfl
@[simp] theorem State.setKey_err (s : State) (k : Fin 16) (down : Bool) : (s.setKey k down).err = s.err := rfl
@[simp] theorem State.setKey_draws (s : State) (k : Fin 16) (down : Bool) : (s.setKey k down).draws = s.draws := rfl
@[simp] theorem State.setKey_cfg (s : State) (k : Fin 16) (down : Bool) : (s.setKey k down).cfg = s.cfg := rfl
@[simp] theorem State.getV_setKey (s : State) (k : Fin 16) (down : Bool) (r : Reg) : (s.setKey k down).getV r = s.getV r := rfl
@[simp] theorem State.readByte_setKey (s : State) (k : Fin 16) (down : Bool) (adr : Nat) : (s.setKey k down).readByte adr = s.readByte adr := rfl

/-! ### `setMem` -/

@[simp] theorem State.setMem_v (s : State) (m : Memory) : (s.setMem m).v = s.v := rfl
@[simp] theorem State.setMem_i (s : State) (m : Memory) : (s.setMem m).i = s.i := rfl
@[simp] theorem State.setMem_pc (s : State) (m : Memory) : (s.setMem m).pc = s.pc := rfl
@[simp] theorem State.setMem_sp (s : State) (m : Memory) : (s.setMem m).sp = s.sp := rfl
@[simp] theorem State.setMem_stack (s : State) (m : Memory) : (s.setMem m).stack = s.stack := rfl
@[simp] theorem State.setMem_dt (s : State) (m : Memory) : (s.setMem m).dt = s.dt := rfl
@[simp] theorem State.setMem_st (s : State) (m : Memory) : (s.setMem m).st = s.st := rfl
@[simp] theorem State.setMem_display (s : State) (m : Memory) : (s.setMem m).display = s.display := rfl
@[simp] theorem State.setMem_keys (s : State) (m : Memory) : (s.setMem m).keys = s.keys := rfl
@[simp] theorem State.setMem_mem (s : State) (m : Memory) : (s.setMem m).mem = m := rfl
@[simp] theorem State.setMem_state (s : State) (m : Memory) : (s.setMem m).state = s.state := rfl
@[simp] theorem State.setMem_waitReg (s : State) (m : Memory) : (s.setMem m).waitReg = s.waitReg := rfl
@[simp] theorem State.setMem_redraw (s : State) (m : Memory) : (s.setMem m).redraw = s.redraw := rfl
@[simp] theorem State.setMem_err (s : State) (m : Memory) : (s.setMem m).err = s.err := rfl
@[simp] theorem State.setMem_draws (s : State) (m : Memory) : (s.setMem m).draws = s.draws := rfl
@[simp] theorem State.setMem_cfg (s : State) (m : Memory) : (s.setMem m).cfg = s.cfg := rfl
@[simp] theorem State.getV_setMem (s : State) (m : Memory) (r : Reg) : (s.setMem m).getV r = s.getV r := rfl
@[simp] theorem State.keyDown_setMem (s : State) (m : Memory) (j : Fin 16) : (s.setMem m).keyDown j = s.keyDown j := rfl

/-! ### `setState` -/

@[simp] theorem State.setState_v (s : State) (m : InterpState) : (s.setState m).v = s.v := rfl
@[simp] theorem State.setState_i (s : State) (m : InterpState) : (s.setState m).i = s.i := rfl
@[simp] theorem State.setState_pc (s : State) (m : InterpState) : (s.setState m).pc = s.pc := rfl
@[simp] theorem State.setState_sp (s : State) (m : InterpState) : (s.setState m).sp = s.sp := rfl
@[simp] theorem State.setState_stack (s : State) (m : InterpState) : (s.setState m).stack = s.stack := rfl
@[simp] theorem State.setState_dt (s : State) (m : InterpState) : (s.setState m).dt = s.dt := rfl
@[simp] theorem State.setState_st (s : State) (m : InterpState) : (s.setState m).st = s.st := rfl
@[simp] theorem State.setState_display (s : State) (m : InterpState) : (s.setState m).display = s.display := rfl
@[simp] theorem State.setState_keys (s : State) (m : InterpState) : (s.setState m).keys = s.keys := rfl
@[simp] theorem State.setState_mem (s : State) (m : InterpState) : (s.setState m).mem = s.mem := rfl
@[simp] theorem State.setState_state (s : State) (m : InterpState) : (s.setState m).state = m := rfl
@[simp] theorem State.setState_waitReg (s : State) (m : InterpState) : (s.setState m).waitReg = s.waitReg := rfl
@[simp] theorem State.setState_redraw (s : State) (m : InterpState) : (s.setState m).redraw = s.redraw := rfl
@[simp] theorem State.setState_err (s : State) (m : InterpState) : (s.setState m).err = s.err := rfl
@[simp] theorem State.setState_draws (s : State) (m : InterpState) : (s.setState m).draws = s.draws := rfl
@[simp] theorem State.setState_cfg (s : State) (m : InterpState) : (s.setState m).cfg = s.cfg := rfl
@[simp] theorem State.getV_setState (s : State) (m : InterpState) (r : Reg) : (s.setState m).getV r = s.getV r := rfl
@[simp] theorem State.keyDown_setState (s : State) (m : InterpState) (j : Fin 16) : (s.setState m).keyDown j = s.keyDown j := rfl
@[simp] theorem State.readByte_setState (s : State) (m : InterpState) (adr : Nat) : (s.setState m).readByte adr = s.readByte adr := rfl

/-! ### `setWaitReg` -/

@[simp] theorem State.setWaitReg_v (s : State) (x : Reg) : (s.setWaitReg x).v = s.v := rfl
@[simp] theorem State.setWaitReg_i (s : State) (x : Reg) : (s.setWaitReg x).i = s.i := rfl
@[simp] theorem State.setWaitReg_pc (s : State) (x : Reg) : (s.setWaitReg x).pc = s.pc := rfl
@[simp] theorem State.setWaitReg_sp (s : State) (x : Reg) : (s.setWaitReg x).sp = s.sp := rfl
@[simp] theorem State.setWaitReg_stack (s : State) (x : Reg) : (s.setWaitReg x).stack = s.stack := rfl
@[simp] theorem State.setWaitReg_dt (s : State) (x : Reg) : (s.setWaitReg x).dt = s.dt := rfl
@[simp] theorem State.setWaitReg_st (s : State) (x : Reg) : (s.setWaitReg x).st = s.st := rfl
@[simp] theorem State.setWaitReg_display (s : State) (x : Reg) : (s.setWaitReg x).display = s.display := rfl
@[simp] theorem State.setWaitReg_keys (s : State) (x : Reg) : (s.setWaitReg x).keys = s.keys := rfl
@[simp] theorem State.setWaitReg_mem (s : State) (x : Reg) : (s.setWaitReg x).mem = s.mem := rfl
@[simp] theorem State.setWaitReg_state (s : State) (x : Reg) : (s.setWaitReg x).state = s.state := rfl
@[simp] theorem State.setWaitReg_waitReg (s : State) (x : Reg) : (s.setWaitReg x).waitReg = x := rfl
@[simp] theorem State.setWaitReg_redraw (s : State) (x : Reg) : (s.setWaitReg x).redraw = s.redraw := rfl
@[simp] theorem State.setWaitReg_err (s : State) (x : Reg) : (s.setWaitReg x).err = s.err := rfl
@[simp] theorem State.setWaitReg_draws (s : State) (x : Reg) : (s.setWaitReg x).draws = s.draws := rfl
@[simp] theorem State.setWaitReg_cfg (s : State) (x : Reg) : (s.setWaitReg x).cfg = s.cfg := rfl
@[simp] theorem State.getV_setWaitReg (s : State) (x : Reg) (r : Reg) : (s.setWaitReg x).getV r = s.getV r := rfl
@[simp] theorem State.keyDown_setWaitReg (s : State) (x : Reg) (j : Fin 16) : (s.setWaitReg x).keyDown j = s.keyDown j := rfl
@[simp] theorem State.readByte_setWaitReg (s : State) (x : Reg) (adr : Nat) : (s.setWaitReg x).readByte adr = s.readByte adr := rfl

/-! ### `setRedraw` -/

@[simp] theorem State.setRedraw_v (s : State) (b : Bool) : (s.setRedraw b).v = s.v := rfl
@[simp] theorem State.setRedraw_i (s : State) (b : Bool) : (s.setRedraw b).i = s.i := rfl
@[simp] theorem State.setRedraw_pc (s : State) (b : Bool) : (s.setRedraw b).pc = s.pc := rfl
@[simp] theorem State.setRedraw_sp (s : State) (b : Bool) : (s.setRedraw b).sp = s.sp := rfl
@[simp] theorem State.setRedraw_stack (s : State) (b : Bool) : (s.setRedraw b).stack = s.stack := rfl
@[simp] theorem State.setRedraw_dt (s : State) (b : Bool) : (s.setRedraw b).dt = s.dt := rfl
@[simp] theorem State.setRedraw_st (s : State) (b : Bool) : (s.setRedraw b).st = s.st := rfl
@[simp] theorem State.setRedraw_display (s : State) (b : Bool) : (s.setRedraw b).display = s.display := rfl
@[simp] theorem State.setRedraw_keys (s : State) (b : Bool) : (s.setRedraw b).keys = s.keys := rfl
@[simp] theorem State.setRedraw_mem (s : State) (b : Bool) : (s.setRedraw b).mem = s.mem := rfl
@[simp] theorem State.setRedraw_state (s : State) (b : Bool) : (s.setRedraw b).state = s.state := rfl
@[simp] theorem State.setRedraw_waitReg (s : State) (b : Bool) : (s.setRedraw b).waitReg = s.waitReg := rfl
@[simp] theorem State.setRedraw_redraw (s : State) (b : Bool) : (s.setRedraw b).redraw = b := rfl
@[simp] theorem State.setRedraw_err (s : State) (b : Bool) : (s.setRedraw b).err = s.err := rfl
@[simp] theorem State.setRedraw_draws (s : State) (b : Bool) : (s.setRedraw b).draws = s.draws := rfl
@[simp] theorem State.setRedraw_cfg (s : State) (b : Bool) : (s.setRedraw b).cfg = s.cfg := rfl
@[simp] theorem State.getV_setRedraw (s : State) (b : Bool) (r : Reg) : (s.setRedraw b).getV r = s.getV r := rfl
@[simp] theorem State.keyDown_setRedraw (s : State) (b : Bool) (j : Fin 16) : (s.setRedraw b).keyDown j = s.keyDown j := rfl
@[simp] theorem State.readByte_setRedraw (s : State) (b : Bool) (adr : Nat) : (s.setRedraw b).readByte adr = s.readByte adr := rfl

/-! ### `setErr` -/

@[simp] theorem State.setErr_v (s : State) (e : Option ErrorRecord) : (s.setErr e).v = s.v := rfl
@[simp] theorem State.setErr_i (s : State) (e : Option ErrorRecord) : (s.setErr e).i = s.i := rfl
@[simp] theorem State.setErr_pc (s : State) (e : Option ErrorRecord) : (s.setErr e).pc = s.pc := rfl
@[simp] theorem State.setErr_sp (s : State) (e : Option ErrorRecord) : (s.setErr e).sp = s.sp := rfl
@[simp] theorem State.setErr_stack (s : State) (e : Option ErrorRecord) : (s.setErr e).stack = s.stack := rfl
@[simp] theorem State.setErr_dt (s : State) (e : Option ErrorRecord) : (s.setErr e).dt = s.dt := rfl
@[simp] theorem State.setErr_st (s : State) (e : Option ErrorRecord) : (s.setErr e).st = s.st := rfl
@[simp] theorem State.setErr_display (s : State) (e : Option ErrorRecord) : (s.setErr e).display = s.display := rfl
@[simp] theorem State.setErr_keys (s : State) (e : Option ErrorRecord) : (s.setErr e).keys = s.keys := rfl
@[simp] theorem State.setErr_mem (s : State) (e : Option ErrorRecord) : (s.setErr e).mem = s.mem := rfl
@[simp] theorem State.setErr_state (s : State) (e : Option ErrorRecord) : (s.setErr e).state = s.state := rfl
@[simp] theorem State.setErr_waitReg (s : State) (e : Option ErrorRecord) : (s.setErr e).waitReg = s.waitReg := rfl
@[simp] theorem State.setErr_redraw (s : State) (e : Option ErrorRecord) : (s.setErr e).redraw = s.redraw := rfl
@[simp] theorem State.setErr_err (s : State) (e : Option ErrorRecord) : (s.setErr e).err = e := rfl
@[simp] theorem State.setErr_draws (s : State) (e : Option ErrorRecord) : (s.setErr e).draws = s.draws := rfl
@[simp] theorem State.setErr_cfg (s : State) (e : Option ErrorRecord) : (s.setErr e).cfg = s.cfg := rfl
@[simp] theorem State.getV_setErr (s : State) (e : Option ErrorRecord) (r : Reg) : (s.setErr e).getV r = s.getV r := rfl
@[simp] theorem State.keyDown_setErr (s : State) (e : Option ErrorRecord) (j : Fin 16) : (s.setErr e).keyDown j = s.keyDown j := rfl
@[simp] theorem State.readByte_setErr (s : State) (e : Option ErrorRecord) (adr : Nat) : (s.setErr e).readByte adr = s.readByte adr := rfl

/-! ### `setStack` -/

@[simp] theorem State.setStack_v (s : State) (entries : Vector Word 16) (depth : Fin 17) : (s.setStack entries depth).v = s.v := rfl
@[simp] theorem State.setStack_i (s : State) (entries : Vector Word 16) (depth : Fin 17) : (s.setStack entries depth).i = s.i := rfl
@[simp] theorem State.setStack_pc (s : State) (entries : Vector Word 16) (depth : Fin 17) : (s.setStack entries depth).pc = s.pc := rfl
@[simp] theorem State.setStack_sp (s : State) (entries : Vector Word 16) (depth : Fin 17) : (s.setStack entries depth).sp = depth := rfl
@[simp] theorem State.setStack_stack (s : State) (entries : Vector Word 16) (depth : Fin 17) : (s.setStack entries depth).stack = entries := rfl
@[simp] theorem State.setStack_dt (s : State) (entries : Vector Word 16) (depth : Fin 17) : (s.setStack entries depth).dt = s.dt := rfl
@[simp] theorem State.setStack_st (s : State) (entries : Vector Word 16) (depth : Fin 17) : (s.setStack entries depth).st = s.st := rfl
@[simp] theorem State.setStack_display (s : State) (entries : Vector Word 16) (depth : Fin 17) : (s.setStack entries depth).display = s.display := rfl
@[simp] theorem State.setStack_keys (s : State) (entries : Vector Word 16) (depth : Fin 17) : (s.setStack entries depth).keys = s.keys := rfl
@[simp] theorem State.setStack_mem (s : State) (entries : Vector Word 16) (depth : Fin 17) : (s.setStack entries depth).mem = s.mem := rfl
@[simp] theorem State.setStack_state (s : State) (entries : Vector Word 16) (depth : Fin 17) : (s.setStack entries depth).state = s.state := rfl
@[simp] theorem State.setStack_waitReg (s : State) (entries : Vector Word 16) (depth : Fin 17) : (s.setStack entries depth).waitReg = s.waitReg := rfl
@[simp] theorem State.setStack_redraw (s : State) (entries : Vector Word 16) (depth : Fin 17) : (s.setStack entries depth).redraw = s.redraw := rfl
@[simp] theorem State.setStack_err (s : State) (entries : Vector Word 16) (depth : Fin 17) : (s.setStack entries depth).err = s.err := rfl
@[simp] theorem State.setStack_draws (s : State) (entries : Vector Word 16) (depth : Fin 17) : (s.setStack entries depth).draws = s.draws := rfl
@[simp] theorem State.setStack_cfg (s : State) (entries : Vector Word 16) (depth : Fin 17) : (s.setStack entries depth).cfg = s.cfg := rfl
@[simp] theorem State.getV_setStack (s : State) (entries : Vector Word 16) (depth : Fin 17) (r : Reg) : (s.setStack entries depth).getV r = s.getV r := rfl
@[simp] theorem State.keyDown_setStack (s : State) (entries : Vector Word 16) (depth : Fin 17) (j : Fin 16) : (s.setStack entries depth).keyDown j = s.keyDown j := rfl
@[simp] theorem State.readByte_setStack (s : State) (entries : Vector Word 16) (depth : Fin 17) (adr : Nat) : (s.setStack entries depth).readByte adr = s.readByte adr := rfl

/-! ### `countDraw` -/

@[simp] theorem State.countDraw_v (s : State) : s.countDraw.v = s.v := rfl
@[simp] theorem State.countDraw_i (s : State) : s.countDraw.i = s.i := rfl
@[simp] theorem State.countDraw_pc (s : State) : s.countDraw.pc = s.pc := rfl
@[simp] theorem State.countDraw_sp (s : State) : s.countDraw.sp = s.sp := rfl
@[simp] theorem State.countDraw_stack (s : State) : s.countDraw.stack = s.stack := rfl
@[simp] theorem State.countDraw_dt (s : State) : s.countDraw.dt = s.dt := rfl
@[simp] theorem State.countDraw_st (s : State) : s.countDraw.st = s.st := rfl
@[simp] theorem State.countDraw_display (s : State) : s.countDraw.display = s.display := rfl
@[simp] theorem State.countDraw_keys (s : State) : s.countDraw.keys = s.keys := rfl
@[simp] theorem State.countDraw_mem (s : State) : s.countDraw.mem = s.mem := rfl
@[simp] theorem State.countDraw_state (s : State) : s.countDraw.state = s.state := rfl
@[simp] theorem State.countDraw_waitReg (s : State) : s.countDraw.waitReg = s.waitReg := rfl
@[simp] theorem State.countDraw_redraw (s : State) : s.countDraw.redraw = s.redraw := rfl
@[simp] theorem State.countDraw_err (s : State) : s.countDraw.err = s.err := rfl
@[simp] theorem State.countDraw_draws (s : State) : s.countDraw.draws = s.draws + 1 := rfl
@[simp] theorem State.countDraw_cfg (s : State) : s.countDraw.cfg = s.cfg := rfl
@[simp] theorem State.getV_countDraw (s : State) (r : Reg) : s.countDraw.getV r = s.getV r := rfl
@[simp] theorem State.keyDown_countDraw (s : State) (j : Fin 16) : s.countDraw.keyDown j = s.keyDown j := rfl
@[simp] theorem State.readByte_countDraw (s : State) (adr : Nat) : s.countDraw.readByte adr = s.readByte adr := rfl

/-! ### The accessors that an update changes -/

/-- A register read after a register write (10_state.md R19). -/
theorem State.getV_setV (s : State) (x r : Reg) (b : Byte) :
    (s.setV x b).getV r = if r = x then b else s.getV r := by
  simp only [State.getV, State.setV, Fin.getElem_fin, Vector.getElem_set, Fin.ext_iff, eq_comm]

@[simp] theorem State.getV_setV_self (s : State) (x : Reg) (b : Byte) : (s.setV x b).getV x = b := by
  simp [State.getV_setV]

theorem State.getV_setV_of_ne (s : State) {x r : Reg} (b : Byte) (h : r ≠ x) :
    (s.setV x b).getV r = s.getV r := by
  simp [State.getV_setV, h]

/-- A key read after a key event (60_exceptions.md R140). -/
theorem State.keyDown_setKey (s : State) (k j : Fin 16) (down : Bool) :
    (s.setKey k down).keyDown j = if j = k then down else s.keyDown j := by
  simp only [State.keyDown, State.setKey, Fin.getElem_fin, Vector.getElem_set, Fin.ext_iff, eq_comm]

/-- Two states are equal when their registers, seen through `getV`, and all other fields are equal. -/
theorem State.v_ext {s t : State} (h : ∀ r, t.getV r = s.getV r) : t.v = s.v := by
  apply Vector.ext
  intro k hk
  exact h ⟨k, hk⟩

/-- Nothing changed between a state and itself. -/
theorem Unchanged.refl (items : List Item) (regs : List Reg) (s : State) : Unchanged items regs s s := by
  constructor <;> intros <;> rfl

/-- A statement that allows more changes follows from one that allows fewer. -/
theorem Unchanged.mono {items items' : List Item} {regs regs' : List Reg} {s t : State}
    (h : Unchanged items regs s t) (hi : items ⊆ items') (hr : regs ⊆ regs') : Unchanged items' regs' s t where
  v r hn := h.v r fun hm => hn (hr hm)
  i hn := h.i fun hm => hn (hi hm)
  pc hn := h.pc fun hm => hn (hi hm)
  sp hn := h.sp fun hm => hn (hi hm)
  stack hn := h.stack fun hm => hn (hi hm)
  dt hn := h.dt fun hm => hn (hi hm)
  st hn := h.st fun hm => hn (hi hm)
  display hn := h.display fun hm => hn (hi hm)
  keys hn := h.keys fun hm => hn (hi hm)
  memory hn := h.memory fun hm => hn (hi hm)
  state hn := h.state fun hm => hn (hi hm)
  waitReg hn := h.waitReg fun hm => hn (hi hm)
  redraw hn := h.redraw fun hm => hn (hi hm)
  err hn := h.err fun hm => hn (hi hm)
  draws hn := h.draws fun hm => hn (hi hm)
  cfg := h.cfg

/-- Changes in sequence. -/
theorem Unchanged.trans {items : List Item} {regs : List Reg} {s t u : State}
    (h : Unchanged items regs s t) (h' : Unchanged items regs t u) : Unchanged items regs s u where
  v r hn := (h'.v r hn).trans (h.v r hn)
  i hn := (h'.i hn).trans (h.i hn)
  pc hn := (h'.pc hn).trans (h.pc hn)
  sp hn := (h'.sp hn).trans (h.sp hn)
  stack hn := (h'.stack hn).trans (h.stack hn)
  dt hn := (h'.dt hn).trans (h.dt hn)
  st hn := (h'.st hn).trans (h.st hn)
  display hn := (h'.display hn).trans (h.display hn)
  keys hn := (h'.keys hn).trans (h.keys hn)
  memory hn a := (h'.memory hn a).trans (h.memory hn a)
  state hn := (h'.state hn).trans (h.state hn)
  waitReg hn := (h'.waitReg hn).trans (h.waitReg hn)
  redraw hn := (h'.redraw hn).trans (h.redraw hn)
  err hn := (h'.err hn).trans (h.err hn)
  draws hn := (h'.draws hn).trans (h.draws hn)
  cfg := h'.cfg.trans h.cfg

/-- A write of one register changes that register only. -/
theorem Unchanged.setV (s : State) (x : Reg) (b : Byte) : Unchanged [] [x] s (s.setV x b) := by
  constructor <;> intros <;> first | rfl | exact State.getV_setV_of_ne s b (by simp_all)

end Sys2Proof.Machine
end

