-- ==== Sys2Proof/Laws/Memory.lean ====
section
/-! SUPPORT. Memory: a read after a write, the canonical form kept by every operation, and what the checked accesses do
(spec 00_scope.md R13, 20_memory.md R53, R55, 43_index_memory.md R109). -/

namespace Sys2Proof.Machine

/-! ## The list of bytes -/

/-- The addresses of a memory in canonical form that come after a head `k` are above it. -/
theorem Memory.wf_cons {c : Config} {k : Nat} {v : Byte} {m : Memory} :
    Memory.wf c ((k, v) :: m) ↔
      (∀ p ∈ m, k < p.1) ∧ k < memSize ∧ v ≠ Memory.unlisted c k ∧ Memory.wf c m := by
  simp only [Memory.wf, List.pairwise_cons, List.mem_cons, forall_eq_or_imp]
  tauto

/-- An address below every listed one reads as unlisted. -/
theorem Memory.read_of_lt {c : Config} {m : Memory} {a : Nat} (h : ∀ p ∈ m, a < p.1) :
    Memory.read c m a = Memory.unlisted c a := by
  induction m with
  | nil => rfl
  | cons p m ih =>
    have hp := h p (by simp)
    rw [Memory.read, if_neg (by omega)]
    exact ih fun q hq => h q (by simp [hq])

theorem Memory.read_cons {c : Config} {m : Memory} {a : Nat} (h : ∀ p ∈ m, a < p.1) (b : Byte) (a' : Nat) :
    Memory.read c (Memory.cons c a b m) a' = if a' = a then b else Memory.read c m a' := by
  unfold Memory.cons
  by_cases hb : b = Memory.unlisted c a
  · by_cases ha : a' = a
    · subst ha; simp [hb, Memory.read_of_lt h]
    · simp [hb, ha]
  · simp [hb, Memory.read]

/-- A read after a write, on a memory in canonical form (20_memory.md R55): the written byte at the written address, and
the byte that was there at any other. -/
theorem Memory.read_write {c : Config} {m : Memory} (h : Memory.wf c m) (a : Nat) (b : Byte) (a' : Nat) :
    Memory.read c (Memory.write c m a b) a' = if a' = a then b else Memory.read c m a' := by
  induction m with
  | nil => exact Memory.read_cons (by simp) b a'
  | cons p m ih =>
    obtain ⟨k, v⟩ := p
    obtain ⟨hlt, -, -, hm⟩ := Memory.wf_cons.1 h
    simp only [Memory.write]
    split
    · next hak =>
      refine Memory.read_cons ?_ b a'
      intro q hq
      rcases List.mem_cons.1 hq with rfl | hq
      · exact hak
      · exact lt_trans hak (hlt q hq)
    · split
      · next hak =>
        subst hak
        rw [Memory.read_cons hlt]
        by_cases ha : a' = a <;> simp [ha, Memory.read]
      · next hne =>
        simp only [Memory.read, ih hm]
        by_cases hk : a' = k
        · subst hk; simp [Ne.symm hne]
        · simp [hk]

/-- The addresses a write can list are those listed before and the written one. -/
theorem Memory.mem_write {c : Config} {m : Memory} {a : Nat} {b : Byte} {p : Host.Cell}
    (h : p ∈ Memory.write c m a b) : p ∈ m ∨ p = (a, b) ∧ b ≠ Memory.unlisted c a := by
  induction m with
  | nil =>
    simp only [Memory.write, Memory.cons] at h
    split at h <;> simp_all
  | cons q m ih =>
    obtain ⟨k, v⟩ := q
    simp only [Memory.write, Memory.cons] at h
    split at h
    · split at h
      · exact .inl h
      · next hb => exact (List.mem_cons.1 h).elim (fun e => .inr ⟨e, hb⟩) .inl
    · split at h
      · split at h
        · exact .inl (by simp [h])
        · next hb => exact (List.mem_cons.1 h).elim (fun e => .inr ⟨e, hb⟩) fun e => .inl (by simp [e])
      · simp only [List.mem_cons] at h ⊢
        rcases h with h | h
        · exact .inl (.inl h)
        · exact (ih h).imp .inr id

theorem Memory.wf_cons_of_lt {c : Config} {m : Memory} {a : Nat} (h : Memory.wf c m) (ha : a < memSize)
    (hlt : ∀ p ∈ m, a < p.1) (b : Byte) : Memory.wf c (Memory.cons c a b m) := by
  unfold Memory.cons
  split
  · exact h
  · next hb => exact Memory.wf_cons.2 ⟨hlt, ha, hb, h⟩

/-- A write inside the memory keeps the canonical form. -/
theorem Memory.wf_write {c : Config} {m : Memory} (h : Memory.wf c m) {a : Nat} (ha : a < memSize) (b : Byte) :
    Memory.wf c (Memory.write c m a b) := by
  induction m with
  | nil => exact Memory.wf_cons_of_lt h ha (by simp) b
  | cons p m ih =>
    obtain ⟨k, v⟩ := p
    obtain ⟨hlt, hk, hv, hm⟩ := Memory.wf_cons.1 h
    simp only [Memory.write]
    split
    · next hak =>
      refine Memory.wf_cons_of_lt h ha ?_ b
      intro q hq
      rcases List.mem_cons.1 hq with rfl | hq
      · exact hak
      · exact lt_trans hak (hlt q hq)
    · split
      · next hak => subst hak; exact Memory.wf_cons_of_lt hm ha hlt b
      · next hle hne =>
        refine Memory.wf_cons.2 ⟨?_, hk, hv, ih hm⟩
        intro q hq
        rcases Memory.mem_write hq with hq | ⟨rfl, -⟩
        · exact hlt q hq
        · simp only; omega

/-- The reset memory is in canonical form. -/
theorem Memory.wf_nil (c : Config) : Memory.wf c [] := by simp [Memory.wf]

theorem State.resetWith_mem_wf (c : Config) (n : Nat) :
    Memory.wf (State.resetWith c n).cfg (State.resetWith c n).mem := Memory.wf_nil c

/-! ## Bytes of the state -/

@[simp] theorem State.writeByte_cfg (s : State) (a : Nat) (b : Byte) : (s.writeByte a b).cfg = s.cfg := rfl

@[simp] theorem State.writeByte_i (s : State) (a : Nat) (b : Byte) : (s.writeByte a b).i = s.i := rfl

@[simp] theorem State.getV_writeByte (s : State) (a : Nat) (b : Byte) (r : Reg) :
    (s.writeByte a b).getV r = s.getV r := rfl

/-- A byte read after a byte write. -/
theorem State.readByte_writeByte {s : State} (h : Memory.wf s.cfg s.mem) (a : Nat) (b : Byte) (a' : Nat) :
    (s.writeByte a b).readByte a' = if a' = a then b else s.readByte a' :=
  Memory.read_write h a b a'

theorem State.writeByte_wf {s : State} (h : Memory.wf s.cfg s.mem) {a : Nat} (ha : a < memSize) (b : Byte) :
    Memory.wf (s.writeByte a b).cfg (s.writeByte a b).mem :=
  Memory.wf_write h ha b

/-- A memory write changes memory only. -/
theorem Unchanged.setMem (s : State) (m : Memory) : Unchanged [.memory] [] s (s.setMem m) := by
  constructor <;> intros <;> first | rfl | simp_all

/-! ## The checked accesses -/

theorem memRead_ok {s : State} {a : Nat} (h : a < memSize) : memRead s a = .ok (s.readByte a) := by
  rw [memRead, if_neg (by omega)]

theorem memRead_error {s : State} {a : Nat} (h : memSize ≤ a) : memRead s a = .error (.outOfBounds a) := by
  rw [memRead, if_pos h]

theorem memWrite_ok {s : State} {a : Nat} (h : a < memSize) (hg : ¬ InGlyphTable s.cfg a) (b : Byte) :
    memWrite s a b = .ok (s.writeByte a b) := by
  rw [memWrite, if_neg (by omega), if_neg hg]

/-- What MemWrite can answer (00_scope.md R13). -/
theorem memWrite_cases {s : State} {a : Nat} {b : Byte} {r : Except Raised State} (h : memWrite s a b = r) :
    (memSize ≤ a ∧ r = .error (.outOfBounds a)) ∨ (a < memSize ∧ InGlyphTable s.cfg a ∧ r = .error (.glyphWrite a)) ∨
      (a < memSize ∧ ¬ InGlyphTable s.cfg a ∧ r = .ok (s.writeByte a b)) := by
  unfold memWrite at h
  split at h
  · next hb => exact .inl ⟨hb, h.symm⟩
  · next hb =>
    split at h
    · next hg => exact .inr (.inl ⟨by omega, hg, h.symm⟩)
    · next hg => exact .inr (.inr ⟨by omega, hg, h.symm⟩)

/-- Reading in-range bytes never fails, and gives them in order. -/
theorem readBytes_ok {s : State} {a m : Nat} (h : a + m ≤ memSize) :
    readBytes s a m = .ok ((List.range m).map fun k => s.readByte (a + k)) := by
  induction m generalizing a with
  | zero => rfl
  | succ m ih =>
    rw [readBytes, memRead_ok (by omega), ih (by omega)]
    simp [List.range_succ_eq_map, Function.comp_def, Nat.add_assoc, Nat.add_comm 1]

/-- What a sequence of writes that succeeds does: it changes memory only, keeps its form, stores the bytes in order, leaves
every other byte alone and never touches the glyph table. -/
theorem writeBytes_spec {s t : State} {a : Nat} {bs : List Byte} (h : writeBytes s a bs = .ok t)
    (hw : Memory.wf s.cfg s.mem) :
    t = s.setMem t.mem ∧ Memory.wf t.cfg t.mem ∧
      (∀ k (hk : k < bs.length), t.readByte (a + k) = bs[k]) ∧
      (∀ x, (x < a ∨ a + bs.length ≤ x) → t.readByte x = s.readByte x) ∧
      (∀ x, InGlyphTable s.cfg x → t.readByte x = s.readByte x) ∧
      (∀ k < bs.length, a + k < memSize ∧ ¬ InGlyphTable s.cfg (a + k)) := by
  induction bs generalizing s a with
  | nil => cases h; exact ⟨rfl, hw, by simp, by simp, by simp, by simp⟩
  | cons b bs ih =>
    rw [writeBytes] at h
    rcases memWrite_cases (s := s) (a := a) (b := b) rfl with ⟨-, e⟩ | ⟨-, -, e⟩ | ⟨ha, hg, e⟩ <;>
      simp only [e] at h <;> try exact absurd h (by simp)
    have hw' := State.writeByte_wf hw ha b
    obtain ⟨h1, h2, h3, h4, h5, h6⟩ := ih h hw'
    have hr := State.readByte_writeByte hw a b
    refine ⟨by rw [h1]; rfl, h2, ?_, ?_, ?_, ?_⟩
    · intro k hk
      cases k with
      | zero => rw [h4 _ (by omega), hr]; simp
      | succ k =>
        rw [show a + (k + 1) = a + 1 + k by omega]
        exact h3 k (by simpa using hk)
    · intro x hx
      simp only [List.length_cons] at hx
      rw [h4 x (by omega), hr, if_neg (by omega)]
    · intro x hx
      rw [h5 x hx, hr, if_neg (by rintro rfl; exact hg hx)]
    · intro k hk
      cases k with
      | zero => exact ⟨ha, hg⟩
      | succ k =>
        have := h6 k (by simpa using hk)
        rw [show a + (k + 1) = a + 1 + k by omega]
        exact this

/-- Writes to addresses in memory and outside the glyph table succeed. -/
theorem writeBytes_ok {s : State} {a : Nat} {bs : List Byte} (hb : a + bs.length ≤ memSize)
    (hg : ∀ k < bs.length, ¬ InGlyphTable s.cfg (a + k)) : ∃ t, writeBytes s a bs = .ok t := by
  induction bs generalizing s a with
  | nil => exact ⟨s, rfl⟩
  | cons b bs ih =>
    simp only [List.length_cons] at hb hg
    rw [writeBytes, memWrite_ok (by omega) (by simpa using hg 0 (by omega))]
    refine ih (by omega) fun k hk => ?_
    have := hg (k + 1) (by omega)
    rwa [show a + (k + 1) = a + 1 + k by omega] at this

/-! ## The check of R109 -/

/-- A read is in bounds. -/
theorem checkAccess_read_ok {c : Config} {a m : Nat} (h : a + m ≤ memSize) : checkAccess c .read a m = .ok () := by
  simp only [memSize] at h
  rw [checkAccess, if_neg (by omega)]; simp

/-- An access out of bounds, with the lowest such address. -/
theorem checkAccess_outOfBounds {c : Config} {kind : AccessKind} {a m : Nat} (h : 0xFFF < a + m - 1) :
    checkAccess c kind a m = .error (.outOfBounds (max a 0x1000)) := by
  rw [checkAccess, if_pos h]

/-- A write in bounds that touches the glyph table, with the lowest such address. -/
theorem checkAccess_glyph {c : Config} {a m g : Nat} (hb : a + m - 1 ≤ 0xFFF) (hag : a ≤ g) (hgm : g < a + m)
    (hg : InGlyphTable c g) (hlow : ∀ b, a ≤ b → b < g → ¬ InGlyphTable c b) :
    checkAccess c .write a m = .error (.glyphWrite g) := by
  simp only [InGlyphTable, glyphTableSize] at hg hlow
  rw [checkAccess, if_neg (by omega), if_pos ⟨rfl, by omega, by simp only [glyphTableSize]; omega⟩]
  have : max a c.glyphBase = g := by
    rcases Nat.eq_or_lt_of_le hag with rfl | hlt
    · omega
    · have := hlow (g - 1) (by omega) (by omega)
      omega
  rw [this]

/-- A write in bounds and clear of the glyph table passes. -/
theorem checkAccess_write_ok {c : Config} {a m : Nat} (hm : 0 < m) (hb : a + m ≤ memSize)
    (hg : ∀ k < m, ¬ InGlyphTable c (a + k)) : checkAccess c .write a m = .ok () := by
  simp only [memSize] at hb
  rw [checkAccess, if_neg (by omega), if_neg]
  rintro ⟨-, h1, h2⟩
  have := hg (max a c.glyphBase - a) (by omega)
  simp only [InGlyphTable, glyphTableSize] at this h2
  omega

/-- What the check can answer, for `m ≥ 1`. -/
theorem checkAccess_cases (c : Config) (kind : AccessKind) (a m : Nat) :
    (0xFFF < a + m - 1 ∧ checkAccess c kind a m = .error (.outOfBounds (max a 0x1000))) ∨
    (a + m - 1 ≤ 0xFFF ∧ kind = .write ∧ checkAccess c kind a m = .error (.glyphWrite (max a c.glyphBase))) ∨
    (a + m - 1 ≤ 0xFFF ∧ checkAccess c kind a m = .ok () ∧
      (kind = .write → ∀ k < m, ¬ InGlyphTable c (a + k))) := by
  unfold checkAccess
  split
  · next h => exact .inl ⟨h, rfl⟩
  · next h =>
    split
    · next h' => exact .inr (.inl ⟨by omega, h'.1, rfl⟩)
    · next h' =>
      refine .inr (.inr ⟨by omega, rfl, fun hk k hkm hg => h' ⟨hk, ?_, ?_⟩⟩) <;>
        simp only [InGlyphTable, glyphTableSize] at hg ⊢ <;> omega

/-! ## The accesses of an instruction -/

theorem loadFromI_ok {s : State} {m : Nat} (h : s.i.toNat + m ≤ memSize) :
    loadFromI s m = .ok ((List.range m).map fun k => s.readByte (s.i.toNat + k)) := by
  rw [loadFromI, checkAccess_read_ok h]
  exact readBytes_ok h

theorem loadFromI_error {s : State} {m : Nat} (h : 0xFFF < s.i.toNat + m - 1) :
    loadFromI s m = .error (.outOfBounds (max s.i.toNat 0x1000)) := by
  rw [loadFromI, checkAccess_outOfBounds h]

/-- A load that succeeds was in bounds. -/
theorem loadFromI_inv {s : State} {m : Nat} {bs : List Byte} (h : loadFromI s m = .ok bs) :
    s.i.toNat + m ≤ memSize ∧ bs = (List.range m).map fun k => s.readByte (s.i.toNat + k) := by
  by_cases hb : 0xFFF < s.i.toNat + m - 1
  · rw [loadFromI_error hb] at h; cases h
  · have hb' : s.i.toNat + m ≤ memSize := by simp only [memSize]; omega
    rw [loadFromI_ok hb'] at h
    cases h
    exact ⟨hb', rfl⟩

/-- A store in bounds and clear of the glyph table succeeds. -/
theorem storeAtI_ok {s : State} {bs : List Byte} (hne : 0 < bs.length) (hb : s.i.toNat + bs.length ≤ memSize)
    (hg : ∀ k < bs.length, ¬ InGlyphTable s.cfg (s.i.toNat + k)) : ∃ t, storeAtI s bs = .ok t := by
  rw [storeAtI, checkAccess_write_ok hne hb hg]
  exact writeBytes_ok hb hg

/-- A store that succeeds is the sequence of its writes. -/
theorem storeAtI_inv {s t : State} {bs : List Byte} (h : storeAtI s bs = .ok t) :
    writeBytes s s.i.toNat bs = .ok t := by
  unfold storeAtI at h
  split at h
  · cases h
  · exact h

end Sys2Proof.Machine
end

