-- ==== Sys2Proof/Laws/Ops.lean ====
section
/-! SUPPORT. The shared operations other than memory: the failed cycle and `settle` (spec 40_cycle.md R79), the call stack
(10_state.md R29), operand forms and flags. One lemma says what each can do; meanings and statements cite it. -/

namespace Sys2Proof.Machine

/-! ## The advance of PC and the failed cycle -/

@[simp] theorem State.cycleStart_advance (s : State) : s.advance.cycleStart = s := by
  simp [State.advance, State.cycleStart, State.setPC]

@[simp] theorem State.advance_pc (s : State) : s.advance.pc = s.pc + 2 := rfl

@[simp] theorem State.getV_advance (s : State) (r : Reg) : s.advance.getV r = s.getV r := rfl

@[simp] theorem State.readByte_advance (s : State) (a : Nat) : s.advance.readByte a = s.readByte a := rfl

/-- The advance changes PC only. -/
theorem Unchanged.setPC (s : State) (a : Word) : Unchanged [.pc] [] s (s.setPC a) := by
  constructor <;> intros <;> first | rfl | simp_all

theorem Unchanged.advance (s : State) : Unchanged [.pc] [] s s.advance := Unchanged.setPC s _

/-- A failed cycle is the failed state of the cycle's start. -/
theorem failCycle_eq (s0 : State) (op : Option Word) (e : Raised) :
    failCycle s0 op e = failedState s0 e.kind op e.addr e.value := rfl

@[simp] theorem failCycle_state (s0 : State) (op : Option Word) (e : Raised) :
    (failCycle s0 op e).state = .halted := rfl

@[simp] theorem failCycle_err (s0 : State) (op : Option Word) (e : Raised) :
    (failCycle s0 op e).err = some (e.record s0.pc op) := rfl

/-- An instruction that settles always answers a next state: it completed, or its cycle failed. -/
theorem settle_cases {s : State} {op : Word} {r : Except Raised State} {o : Host.Outcome State Fault Refusal}
    (h : settle s op r = o) :
    (∃ t, r = .ok t ∧ o = .next t) ∨ (∃ e, r = .error e ∧ o = .next (failCycle s.cycleStart (some op) e)) := by
  cases r with
  | ok t => exact .inl ⟨t, rfl, h.symm⟩
  | error e => exact .inr ⟨e, rfl, h.symm⟩

@[simp] theorem settle_ok (s : State) (op : Word) (t : State) : settle s op (.ok t) = .next t := rfl

@[simp] theorem settle_error (s : State) (op : Word) (e : Raised) :
    settle s op (.error e) = .next (failCycle s.cycleStart (some op) e) := rfl

/-! ## The call stack -/

/-- What `push` does below depth 16. -/
theorem push_ok {s : State} (a : Word) (h : s.sp.val < 16) :
    push s a = .ok (s.setStack (s.stack.set s.sp.val a h) ⟨s.sp.val + 1, Nat.succ_lt_succ h⟩) := by
  rw [push, dif_pos h]

theorem push_overflow {s : State} (a : Word) (h : s.sp.val = 16) : push s a = .error (.plain .stackOverflow) := by
  rw [push, dif_neg (by omega)]

/-- What `push` can answer. -/
theorem push_cases {s : State} {a : Word} {r : Except Raised State} (h : push s a = r) :
    (s.sp.val = 16 ∧ r = .error (.plain .stackOverflow)) ∨
    (∃ t, r = .ok t ∧ s.sp.val < 16 ∧ t.sp.val = s.sp.val + 1 ∧ t = s.setStack t.stack t.sp ∧
      ∀ k : Fin 16, t.stack[k] = if k.val = s.sp.val then a else s.stack[k]) := by
  rcases Nat.lt_or_ge s.sp.val 16 with hlt | hge
  · rw [push_ok a hlt] at h
    refine .inr ⟨_, h.symm, hlt, rfl, rfl, fun k => ?_⟩
    simp only [State.setStack_stack, Fin.getElem_fin, Vector.getElem_set, eq_comm]
  · have heq : s.sp.val = 16 := by omega
    rw [push_overflow a heq] at h
    exact .inl ⟨heq, h.symm⟩

/-- What `pop` does above depth 0. -/
theorem pop_ok {s : State} (k : Fin 16) (h : s.sp.val = k.val + 1) :
    pop s = .ok (s.stack[k], s.setStack s.stack ⟨k.val, by omega⟩) := by
  have hk : s.sp.val - 1 = k.val := by omega
  rw [pop, dif_neg (by omega)]
  simp [hk]

theorem pop_underflow {s : State} (h : s.sp.val = 0) : pop s = .error (.plain .stackUnderflow) := by
  rw [pop, dif_pos h]

/-- What `pop` can answer. -/
theorem pop_cases {s : State} {r : Except Raised (Word × State)} (h : pop s = r) :
    (s.sp.val = 0 ∧ r = .error (.plain .stackUnderflow)) ∨
    (∃ k : Fin 16, s.sp.val = k.val + 1 ∧ r = .ok (s.stack[k], s.setStack s.stack ⟨k.val, by omega⟩)) := by
  rcases Nat.eq_zero_or_pos s.sp.val with h0 | hpos
  · rw [pop_underflow h0] at h
    exact .inl ⟨h0, h.symm⟩
  · have hk : s.sp.val - 1 < 16 := by omega
    refine .inr ⟨⟨s.sp.val - 1, hk⟩, by simp only; omega, ?_⟩
    rw [← h, pop_ok ⟨s.sp.val - 1, hk⟩ (by simp only; omega)]

/-! ## Operand forms and flags -/

@[simp] theorem zextAddr_toNat (nnn : Addr12) : (zextAddr nnn).toNat = nnn.toNat := by
  have := nnn.isLt
  simp [zextAddr]
  omega

@[simp] theorem zextByte_toNat (b : Byte) : (zextByte b).toNat = b.toNat := by
  have := b.isLt
  simp [zextByte]
  omega

/-- A key index in range. -/
theorem keyIndex_ok {b : Byte} (k : Fin 16) (h : b.toNat = k.val) : keyIndex b = .ok k := by
  rw [keyIndex, dif_pos (by omega)]
  simp [h]

theorem keyIndex_error {b : Byte} (h : 0x0F < b.toNat) : keyIndex b = .error (.keyIndex b.toNat) := by
  rw [keyIndex, dif_neg (by omega)]

/-- The low nibble of a byte as a number. -/
theorem lowNibble_toNat (b : Byte) : (b &&& (0x0F : Byte)).toNat = b.toNat % 16 := by
  rw [BitVec.toNat_and, show (0x0F : Byte).toNat = 2 ^ 4 - 1 from rfl, Nat.and_two_pow_sub_one_eq_mod]

/-- The address of a glyph, with legal parameters: no wrap (43_index_memory.md R112). -/
theorem glyphAddress_toNat {c : Config} (h : c.WellFormed) (b : Byte) :
    (glyphAddress c b).toNat = c.glyphBase + 5 * (b.toNat % 16) := by
  obtain ⟨h, -⟩ := h
  simp only [glyphTableSize, programBase] at h
  have := lowNibble_toNat b
  simp only [glyphAddress, BitVec.toNat_ofNat]
  omega

@[simp] theorem regsUpTo_length (s : State) (x : Reg) : (regsUpTo s x).length = x.val + 1 := by
  have := x.isLt
  simp [regsUpTo]

/-- The byte stored for register `k`. -/
theorem regsUpTo_getElem (s : State) (x : Reg) (k : Nat) (hk : k < (regsUpTo s x).length) :
    (regsUpTo s x)[k] = s.getV ⟨k, by rw [regsUpTo_length] at hk; omega⟩ := by
  simp [regsUpTo, State.getV]

/-- Loading bytes into the registers from `k` upward, when they fit. -/
theorem getV_setRegsFrom (s : State) (k : Nat) (bs : List Byte) (h : k + bs.length ≤ 16) (r : Reg) :
    (setRegsFrom s k bs).getV r =
      if hr : k ≤ r.val ∧ r.val < k + bs.length then bs[r.val - k]'(by omega) else s.getV r := by
  induction bs generalizing s k with
  | nil => rw [setRegsFrom, dif_neg]; simp
  | cons b bs ih =>
    simp only [List.length_cons] at h
    rw [setRegsFrom, dif_pos (by omega), ih _ _ (by omega)]
    rcases Nat.lt_trichotomy r.val k with hlt | heq | hgt
    · rw [dif_neg (by omega), dif_neg (by omega), State.getV_setV_of_ne]
      rintro rfl; exact absurd hlt (lt_irrefl _)
    · rw [dif_neg (by omega), dif_pos (by simp only [List.length_cons]; omega)]
      have hr : r = ⟨k, by omega⟩ := Fin.ext heq
      simp [hr]
    · by_cases hin : r.val < k + (bs.length + 1)
      · rw [dif_pos (by omega), dif_pos (by simp only [List.length_cons]; omega)]
        rw [List.getElem_cons, dif_neg (by omega)]
        congr 1
      · rw [dif_neg (by omega), dif_neg (by simp only [List.length_cons]; omega), State.getV_setV_of_ne]
        rintro rfl; exact absurd hgt (lt_irrefl _)

/-- Loading registers changes the general registers only. -/
theorem setRegsFrom_eq (s : State) (k : Nat) (bs : List Byte) :
    setRegsFrom s k bs = { s with v := (setRegsFrom s k bs).v } := by
  induction bs generalizing s k with
  | nil => rfl
  | cons b bs ih =>
    rw [setRegsFrom]
    split
    · rw [ih]; rfl
    · rfl

@[simp] theorem flagByte_true : flagByte true = 1 := rfl

@[simp] theorem flagByte_false : flagByte false = 0 := rfl

/-- A result with a flag: the flag is written last, so VF holds it whatever `x` is (42_alu.md R95). -/
theorem getV_writeWithFlag (s : State) (x r : Reg) (b : Byte) (f : Bool) :
    (writeWithFlag s x b f).getV r = if r = VF then flagByte f else if r = x then b else s.getV r := by
  simp only [writeWithFlag, State.getV_setV]

/-- A result with a flag changes Vx and VF only. -/
theorem Unchanged.writeWithFlag (s : State) (x : Reg) (b : Byte) (f : Bool) :
    Unchanged [] [x, VF] s (writeWithFlag s x b f) :=
  ((Unchanged.setV s x b).mono (by simp) (by simp)).trans ((Unchanged.setV _ VF _).mono (by simp) (by simp))

/-- A skip sets PC two further when the condition holds (41_control_flow.md R85). -/
theorem skipIf_pc (s : State) (b : Bool) : (skipIf s b).pc = if b then s.pc + 2 else s.pc := by
  cases b <;> rfl

theorem Unchanged.skipIf (s : State) (b : Bool) : Unchanged [.pc] [] s (skipIf s b) := by
  cases b
  · exact Unchanged.refl _ _ _
  · exact Unchanged.advance s

end Sys2Proof.Machine
end

