-- ==== Sys2Proof/Laws/Display.lean ====
section
/-! SUPPORT. The display: a cell after a cell write, one pixel, one row and all the rows of a draw (spec 44_display.md
R118). -/

namespace Sys2Proof.Machine

/-- A cell read after a cell write. -/
theorem Display.cell_setCell (d : Display) (x X : Fin 64) (y Y : Fin 32) (b : Bool) :
    (d.setCell x y b).cell X Y = if X = x ∧ Y = y then b else d.cell X Y := by
  simp only [Display.cell, Display.setCell, Fin.getElem_fin, Vector.getElem_set, Fin.ext_iff]
  by_cases hx : x.val = X.val
  · by_cases hy : y.val = Y.val
    · simp [hx, hy]
    · simp [hx, hy, eq_comm]
  · simp [hx, eq_comm]

/-- Two displays with equal cells are equal. -/
theorem Display.ext_cell {d e : Display} (h : ∀ x y, d.cell x y = e.cell x y) : d = e := by
  apply Vector.ext
  intro x hx
  apply Vector.ext
  intro y hy
  exact h ⟨x, hx⟩ ⟨y, hy⟩

@[simp] theorem Display.cell_clear (x : Fin 64) (y : Fin 32) : Display.clear.cell x y = false := by
  simp [Display.cell, Display.clear]

/-- One pixel changes its target cell only, by exclusive or. -/
theorem cell_drawPixel (k : Canvas) (tx X : Fin 64) (ty Y : Fin 32) (p : Bool) :
    (drawPixel k tx ty p).cells.cell X Y =
      if X = tx ∧ Y = ty then k.cells.cell X Y ^^ p else k.cells.cell X Y := by
  simp only [drawPixel, Display.cell_setCell]
  split
  · next h => rw [h.1, h.2]
  · rfl

theorem collision_drawPixel (k : Canvas) (tx : Fin 64) (ty : Fin 32) (p : Bool) :
    (drawPixel k tx ty p).collision = (k.collision || (p && k.cells.cell tx ty)) := rfl

/-- A completed draw changes the display, VF and the redraw level only (R118, R120). -/
theorem drawSprite_eq (s : State) (vx vy : Byte) (rows : List Byte) :
    drawSprite s vx vy rows =
      ((s.setDisplay (drawRows vx vy 0 rows ⟨s.display, false⟩).cells).setV VF
        (flagByte (drawRows vx vy 0 rows ⟨s.display, false⟩).collision)).setRedraw true := rfl

/-- The bytes of a sprite that lies in memory. -/
theorem spriteRows_ok {s : State} {n : RowCount} (h : n.val = 0 ∨ s.i.toNat + n.val ≤ memSize) :
    spriteRows s n = .ok ((List.range n.val).map fun k => s.readByte (s.i.toNat + k)) := by
  unfold spriteRows
  split
  · next h0 => simp [h0]
  · next h0 =>
    have : n.val ≠ 0 := fun e => h0 (Fin.ext e)
    exact loadFromI_ok (by omega)

/-- A sprite that does not lie in memory. -/
theorem spriteRows_error {s : State} {n : RowCount} (h0 : n.val ≠ 0) (h : 0xFFF < s.i.toNat + n.val - 1) :
    spriteRows s n = .error (.outOfBounds (max s.i.toNat 0x1000)) := by
  unfold spriteRows
  rw [if_neg (fun e => h0 (by simp [e]))]
  exact loadFromI_error h

/-! ## A whole draw -/

/-- A set pixel among the first `m` columns of a sprite row drawn at `vx` lands on column `X`. -/
def RowSets (vx : Byte) (row : Byte) (m : Nat) (X : Fin 64) : Prop :=
  ∃ c < m, X.val = (vx.toNat + c) % 64 ∧ row.getLsbD (7 - c) = true

theorem RowSets_succ {vx row : Byte} {m : Nat} {X : Fin 64} :
    RowSets vx row (m + 1) X ↔ RowSets vx row m X ∨ (X = targetColumn vx m ∧ row.getLsbD (7 - m) = true) := by
  have hX : X = targetColumn vx m ↔ X.val = (vx.toNat + m) % 64 := by simp [Fin.ext_iff, targetColumn]
  rw [hX]
  constructor
  · rintro ⟨c, hc, h⟩
    rcases Nat.lt_succ_iff_lt_or_eq.1 hc with hc | rfl
    · exact .inl ⟨c, hc, h⟩
    · exact .inr h
  · rintro (⟨c, hc, h⟩ | h)
    · exact ⟨c, by omega, h⟩
    · exact ⟨m, by omega, h⟩

/-- The eight columns of a row are distinct. -/
theorem not_RowSets {vx row : Byte} {m : Nat} (hm : m < 8) : ¬ RowSets vx row m (targetColumn vx m) := by
  rintro ⟨c, hc, h, -⟩
  simp only [targetColumn] at h
  omega

theorem xor_eq_true_iff (a p : Bool) : (a ^^ p) = true ↔ Xor (a = true) (p = true) := by
  cases a <;> cases p <;> simp [Xor]

/-- The first `m` pixels of a row. -/
theorem drawPixels_spec (vx : Byte) (ty : Fin 32) (row : Byte) (k : Canvas) (m : Nat) (hm : m ≤ 8) :
    let k' := (List.range m).foldl (fun k c => drawPixel k (targetColumn vx c) ty (row.getLsbD (7 - c))) k
    (∀ X Y, k'.cells.cell X Y = true ↔ Xor (k.cells.cell X Y = true) (Y = ty ∧ RowSets vx row m X)) ∧
    (k'.collision = true ↔ k.collision = true ∨ ∃ X, RowSets vx row m X ∧ k.cells.cell X ty = true) := by
  induction m with
  | zero => simp [RowSets, Xor]
  | succ m ih =>
    obtain ⟨ih1, ih2⟩ := ih (by omega)
    have hno := not_RowSets (vx := vx) (row := row) (m := m) (by omega)
    simp only [List.range_succ, List.foldl_append, List.foldl_cons, List.foldl_nil, RowSets_succ]
    generalize List.foldl (fun k c => drawPixel k (targetColumn vx c) ty (row.getLsbD (7 - c))) k (List.range m) = k1
      at ih1 ih2 ⊢
    constructor
    · intro X Y
      rw [cell_drawPixel]
      split
      · next h =>
        obtain ⟨rfl, rfl⟩ := h
        rw [xor_eq_true_iff, ih1]
        simp [hno, Xor]
      · next h =>
        rw [ih1]
        have : (Y = ty ∧ (RowSets vx row m X ∨ X = targetColumn vx m ∧ row.getLsbD (7 - m) = true)) ↔
            (Y = ty ∧ RowSets vx row m X) := by tauto
        rw [this]
    · have hc := ih1 (targetColumn vx m) ty
      simp only [hno, and_false, Xor, not_false_eq_true, and_true, false_and, or_false] at hc
      rw [collision_drawPixel, Bool.or_eq_true, ih2, Bool.and_eq_true, hc]
      constructor
      · rintro ((h | ⟨X, h1, h2⟩) | ⟨h1, h2⟩)
        · exact .inl h
        · exact .inr ⟨X, .inl h1, h2⟩
        · exact .inr ⟨_, .inr ⟨rfl, h1⟩, h2⟩
      · rintro (h | ⟨X, h1 | ⟨rfl, h1⟩, h2⟩)
        · exact .inl (.inl h)
        · exact .inl (.inr ⟨X, h1, h2⟩)
        · exact .inr ⟨h1, h2⟩

/-- One row of a draw: exclusive or of its set pixels into row `ty`, and a collision where one meets a set cell. -/
theorem drawRow_spec (vx : Byte) (ty : Fin 32) (row : Byte) (k : Canvas) :
    (∀ X Y, (drawRow vx ty row k).cells.cell X Y = true ↔
      Xor (k.cells.cell X Y = true) (Y = ty ∧ RowSets vx row 8 X)) ∧
    ((drawRow vx ty row k).collision = true ↔
      k.collision = true ∨ ∃ X, RowSets vx row 8 X ∧ k.cells.cell X ty = true) :=
  drawPixels_spec vx ty row k 8 (by omega)

/-- A set pixel of the rows from row `r` upward lands on cell (X, Y). -/
def RowsSet (vx vy : Byte) (r : Nat) (rows : List Byte) (X : Fin 64) (Y : Fin 32) : Prop :=
  ∃ j, ∃ h : j < rows.length, Y = targetRow vy (r + j) ∧ RowSets vx rows[j] 8 X

theorem RowsSet_cons {vx vy row : Byte} {rows : List Byte} {r : Nat} {X : Fin 64} {Y : Fin 32} :
    RowsSet vx vy r (row :: rows) X Y ↔
      (Y = targetRow vy r ∧ RowSets vx row 8 X) ∨ RowsSet vx vy (r + 1) rows X Y := by
  constructor
  · rintro ⟨j, hj, h1, h2⟩
    cases j with
    | zero => exact .inl ⟨h1, h2⟩
    | succ j => exact .inr ⟨j, by simpa using hj, by rw [h1]; congr 1; omega, h2⟩
  · rintro (⟨h1, h2⟩ | ⟨j, hj, h1, h2⟩)
    · exact ⟨0, by simp, h1, h2⟩
    · exact ⟨j + 1, by simpa using hj, by rw [h1]; congr 1; omega, h2⟩

/-- The rows of a sprite of at most 32 rows are distinct. -/
theorem not_RowsSet {vx vy : Byte} {rows : List Byte} {r : Nat} (h : rows.length < 32) (X : Fin 64) :
    ¬ RowsSet vx vy (r + 1) rows X (targetRow vy r) := by
  rintro ⟨j, hj, h1, -⟩
  simp only [targetRow, Fin.ext_iff] at h1
  omega

/-- All the rows of a draw: exclusive or of the set pixels, and a collision where one meets a set cell (R118, R119). -/
theorem drawRows_spec (vx vy : Byte) (rows : List Byte) (hl : rows.length ≤ 32) (r : Nat) (k : Canvas) :
    (∀ X Y, (drawRows vx vy r rows k).cells.cell X Y = true ↔
      Xor (k.cells.cell X Y = true) (RowsSet vx vy r rows X Y)) ∧
    ((drawRows vx vy r rows k).collision = true ↔
      k.collision = true ∨ ∃ X Y, RowsSet vx vy r rows X Y ∧ k.cells.cell X Y = true) := by
  induction rows generalizing r k with
  | nil => simp [drawRows, RowsSet, Xor]
  | cons row rows ih =>
    simp only [List.length_cons] at hl
    obtain ⟨ih1, ih2⟩ := ih (by omega) (r + 1) (drawRow vx (targetRow vy r) row k)
    obtain ⟨h1, h2⟩ := drawRow_spec vx (targetRow vy r) row k
    have hno := not_RowsSet (vx := vx) (vy := vy) (rows := rows) (r := r) (by omega)
    simp only [drawRows, RowsSet_cons]
    constructor
    · intro X Y
      rw [ih1, h1]
      by_cases hY : Y = targetRow vy r
      · subst hY; simp [hno, Xor]
      · simp [hY, Xor]
    · rw [ih2, h2]
      simp only [h1]
      constructor
      · rintro ((h | ⟨X, h1, h2⟩) | ⟨X, Y, h1, h2⟩)
        · exact .inl h
        · exact .inr ⟨X, _, .inl ⟨rfl, h1⟩, h2⟩
        · have hY : Y ≠ targetRow vy r := by rintro rfl; exact hno X h1
          simp only [hY, false_and, Xor, not_false_eq_true, and_true, false_and, or_false] at h2
          exact .inr ⟨X, Y, .inr h1, h2⟩
      · rintro (h | ⟨X, Y, ⟨rfl, h1⟩ | h1, h2⟩)
        · exact .inl (.inl h)
        · exact .inl (.inr ⟨X, h1, h2⟩)
        · have hY : Y ≠ targetRow vy r := by rintro rfl; exact hno X h1
          exact .inr ⟨X, Y, h1, by simp [hY, Xor, h2]⟩
/-- The rows read from I upward set the pixels that `SpriteSets` names. -/
theorem rowsSet_iff_spriteSets (s : State) (vx vy : Byte) (n : RowCount) (X : Fin 64) (Y : Fin 32) :
    RowsSet vx vy 0 ((List.range n.val).map fun k => s.readByte (s.i.toNat + k)) X Y ↔ SpriteSets s vx vy n X Y := by
  simp only [RowsSet, SpriteSets, RowSets, targetRow, Fin.ext_iff, List.length_map, List.length_range, List.getElem_map,
    List.getElem_range, Nat.zero_add]
  constructor
  · rintro ⟨j, h1, h2, c, hc, h3, h4⟩
    exact ⟨j, h1, c, hc, h3, h2, h4⟩
  · rintro ⟨j, h1, c, hc, h3, h2, h4⟩
    exact ⟨j, h1, h2, c, hc, h3, h4⟩

end Sys2Proof.Machine
end

