-- ==== Sys2Proof/Laws/Step.lean ====
section
/-! SUPPORT. The cycle: what a fetch answers, and the cases of one step (spec 40_cycle.md R70 to R79). -/

namespace Sys2Proof.Machine

/-- A fetch inside memory reads the word at PC (R72). -/
theorem fetch_ok {s : State} (h : s.pc.toNat ≤ 0xFFE) : fetch s = .ok (fetchedWord s) := by
  rw [fetch, memRead_ok (by simp only [memSize]; omega)]
  simp only
  rw [memRead_ok (by simp only [memSize]; omega)]
  rfl

/-- A fetch beyond memory reports the lowest address that is (R48). -/
theorem fetch_error {s : State} (h : 0xFFE < s.pc.toNat) :
    fetch s = .error (.outOfBounds (max s.pc.toNat 0x1000)) := by
  rw [fetch]
  by_cases hpc : memSize ≤ s.pc.toNat
  · rw [memRead_error hpc]
    simp only [memSize] at hpc
    simp [Nat.max_eq_left hpc]
  · simp only [memSize] at hpc
    rw [memRead_ok (by simp only [memSize]; omega)]
    simp only
    rw [memRead_error (by simp only [memSize]; omega)]
    have : s.pc.toNat = 0xFFF := by omega
    simp [this]

/-- The cases of a RUNNING cycle: the fetch fails, the decode fails, or an instruction runs on the advanced state. -/
theorem runCycle_cases (s : State) :
    (0xFFE < s.pc.toNat ∧ runCycle s = .next (failCycle s none (.outOfBounds (max s.pc.toNat 0x1000)))) ∨
    (s.pc.toNat ≤ 0xFFE ∧ (∃ e, decode (fetchedWord s) = .error e) ∧
      runCycle s = .next (failCycle s (some (fetchedWord s)) (.plain .unknownOpcode))) ∨
    (∃ i, s.pc.toNat ≤ 0xFFE ∧ decode (fetchedWord s) = .ok i ∧ runCycle s = exec i s.advance) := by
  rcases Nat.lt_or_ge 0xFFE s.pc.toNat with h | h
  · exact .inl ⟨h, by rw [runCycle, fetch_error h]⟩
  · cases hd : decode (fetchedWord s) with
    | error e => exact .inr (.inl ⟨h, ⟨e, rfl⟩, by simp [runCycle, fetch_ok h, hd]⟩)
    | ok i => exact .inr (.inr ⟨i, h, rfl, by simp [runCycle, fetch_ok h, hd]⟩)

/-- The lowest key down, when there is one (R76). -/
theorem lowestKeyDown_eq_some {s : State} {k : Fin 16} :
    lowestKeyDown s = some k ↔ s.keyDown k = true ∧ ∀ j, j < k → s.keyDown j = false := by
  unfold lowestKeyDown
  rw [List.find?_eq_some_iff_getElem]
  constructor
  · rintro ⟨hk, i, hi, rfl, hlow⟩
    refine ⟨hk, fun j hj => ?_⟩
    have hi' : i < 16 := by simpa using hi
    have hjv : j.val < i := by simpa [Fin.lt_def] using hj
    have := hlow j.val hjv
    simpa using this
  · rintro ⟨hk, hlow⟩
    refine ⟨hk, k.val, by simp, by simp, fun j hj => ?_⟩
    have := hlow ⟨j, by omega⟩ (by simpa [Fin.lt_def] using hj)
    simpa using this

theorem lowestKeyDown_eq_none {s : State} : lowestKeyDown s = none ↔ ∀ j, s.keyDown j = false := by
  simp [lowestKeyDown, List.find?_eq_none]

end Sys2Proof.Machine
end

