-- ==== Sys2Proof/Laws/Exec.lean ====
section
/-! SUPPORT. What an instruction can do, said once: it completes and changes only its own items and registers, or its cycle
fails with an error of its own. One lemma for each shape, and `exec_cases` for all. -/

namespace Sys2Proof.Machine

/-- The items other than general registers that an instruction may change beside the fetch's advance of PC (spec 10_state.md
R18, column "written by"). -/
def writtenItems : Instr → List Item
  | .cls => [.display, .redraw]
  | .ret => [.pc, .stack]
  | .jp _ => [.pc]
  | .call _ => [.pc, .stack]
  | .seImm _ _ => [.pc]
  | .sneImm _ _ => [.pc]
  | .seReg _ _ => [.pc]
  | .ldImm _ _ => []
  | .addImm _ _ => []
  | .ldReg _ _ => []
  | .orReg _ _ => []
  | .andReg _ _ => []
  | .xorReg _ _ => []
  | .addReg _ _ => []
  | .subReg _ _ => []
  | .shr _ _ => []
  | .subnReg _ _ => []
  | .shl _ _ => []
  | .sneReg _ _ => [.pc]
  | .ldI _ => [.i]
  | .jpV0 _ => [.pc]
  | .rnd _ _ => [.draws]
  | .drw _ _ _ => [.display, .redraw]
  | .skp _ => [.pc]
  | .sknp _ => [.pc]
  | .ldVxDt _ => []
  | .ldVxK _ => [.state, .waitReg]
  | .ldDtVx _ => [.dt]
  | .ldStVx _ => [.st]
  | .addIVx _ => [.i]
  | .ldFVx _ => [.i]
  | .ldBVx _ => [.memory]
  | .ldMemVx _ => [.memory]
  | .ldVxMem _ => []

/-- The errors an instruction's own checks can raise (60_exceptions.md R129, 43_index_memory.md R109). -/
inductive RaisedBy (s : State) : Instr → Raised → Prop where
  | overflow (nnn : Addr12) : s.sp.val = 16 → RaisedBy s (.call nnn) (.plain .stackOverflow)
  | underflow : s.sp.val = 0 → RaisedBy s .ret (.plain .stackUnderflow)
  | keyDown (x : Reg) : 0x0F < (s.getV x).toNat → RaisedBy s (.skp x) (.keyIndex (s.getV x).toNat)
  | keyUp (x : Reg) : 0x0F < (s.getV x).toNat → RaisedBy s (.sknp x) (.keyIndex (s.getV x).toNat)
  | bounds (i : Instr) : 0 < accessedBytes i → 0xFFF < s.i.toNat + accessedBytes i - 1 →
      RaisedBy s i (.outOfBounds (max s.i.toNat 0x1000))
  | glyph (i : Instr) (g : Nat) : WritesMemory i → s.i.toNat + accessedBytes i - 1 ≤ 0xFFF →
      RaisedBy s i (.glyphWrite g)

/-! ## The shapes of a completed instruction -/

theorem Unchanged.writeLogic (s : State) (x : Reg) (b : Byte) :
    Unchanged [] (if s.cfg.logicClearsVF then [x, VF] else [x]) s (writeLogic s x b) := by
  unfold Machine.writeLogic
  split
  · exact ((Unchanged.setV s x b).mono (by simp) (by simp)).trans ((Unchanged.setV _ VF _).mono (by simp) (by simp))
  · exact Unchanged.setV s x b

theorem Unchanged.setI (s : State) (a : Word) : Unchanged [.i] [] s (s.setI a) := by
  constructor <;> intros <;> first | rfl | simp_all

theorem Unchanged.setDT (s : State) (b : Byte) : Unchanged [.dt] [] s (s.setDT b) := by
  constructor <;> intros <;> first | rfl | simp_all

theorem Unchanged.setST (s : State) (b : Byte) : Unchanged [.st] [] s (s.setST b) := by
  constructor <;> intros <;> first | rfl | simp_all

theorem Unchanged.setStack (s : State) (e : Vector Word 16) (d : Fin 17) : Unchanged [.stack] [] s (s.setStack e d) := by
  constructor <;> intros <;> first | rfl | simp_all

theorem Unchanged.setDisplay (s : State) (d : Display) : Unchanged [.display] [] s (s.setDisplay d) := by
  constructor <;> intros <;> first | rfl | simp_all

theorem Unchanged.setRedraw (s : State) (b : Bool) : Unchanged [.redraw] [] s (s.setRedraw b) := by
  constructor <;> intros <;> first | rfl | simp_all

theorem Unchanged.countDraw (s : State) : Unchanged [.draws] [] s s.countDraw := by
  constructor <;> intros <;> first | rfl | simp_all

theorem Unchanged.setState (s : State) (m : InterpState) : Unchanged [.state] [] s (s.setState m) := by
  constructor <;> intros <;> first | rfl | simp_all

theorem Unchanged.setWaitReg (s : State) (x : Reg) : Unchanged [.waitReg] [] s (s.setWaitReg x) := by
  constructor <;> intros <;> first | rfl | simp_all

theorem Unchanged.setKey (s : State) (k : Fin 16) (down : Bool) : Unchanged [.keys] [] s (s.setKey k down) := by
  constructor <;> intros <;> first | rfl | simp_all

theorem Unchanged.drawSprite (s : State) (vx vy : Byte) (rows : List Byte) :
    Unchanged [.display, .redraw] [VF] s (drawSprite s vx vy rows) :=
  ((Unchanged.setDisplay s _).mono (by simp) (by simp)).trans
    (((Unchanged.setV _ VF _).mono (by simp) (by simp)).trans ((Unchanged.setRedraw _ true).mono (by simp) (by simp)))

theorem writeLogic_mem (s : State) (x : Reg) (b : Byte) : (writeLogic s x b).mem = s.mem := by
  unfold writeLogic
  split <;> rfl

theorem skipIf_mem (s : State) (b : Bool) : (skipIf s b).mem = s.mem := by
  cases b <;> rfl

/-- A block load changes the registers up to `x` only. -/
theorem Unchanged.setRegsFrom (s : State) (x : Reg) (bs : List Byte) (h : bs.length = x.val + 1) :
    Unchanged [] ((List.finRange 16).filter fun r => r ≤ x) s (setRegsFrom s 0 bs) := by
  have hx := x.isLt
  refine ⟨fun r hr => ?_, ?_, ?_, ?_, ?_, ?_, ?_, ?_, ?_, ?_, ?_, ?_, ?_, ?_, ?_, ?_⟩
  · simp only [List.mem_filter, List.mem_finRange, true_and, decide_eq_true_eq, Fin.le_def] at hr
    rw [getV_setRegsFrom s 0 bs (by omega)]
    exact dif_neg (by omega)
  all_goals (intros; rw [setRegsFrom_eq]; try rfl)

/-- A store that succeeds changes the listed bytes only. -/
theorem writeBytes_eq {s t : State} {a : Nat} {bs : List Byte} (h : writeBytes s a bs = .ok t) :
    t = s.setMem t.mem := by
  induction bs generalizing s a with
  | nil => cases h; rfl
  | cons b bs ih =>
    rw [writeBytes] at h
    rcases memWrite_cases (s := s) (a := a) (b := b) rfl with ⟨-, e⟩ | ⟨-, -, e⟩ | ⟨-, -, e⟩ <;>
      simp only [e] at h <;> try exact absurd h (by simp)
    rw [ih h]; rfl

/-- A store that succeeds changes memory only. -/
theorem Unchanged.storeAtI {s t : State} {bs : List Byte} (h : storeAtI s bs = .ok t) : Unchanged [.memory] [] s t := by
  rw [writeBytes_eq (storeAtI_inv h)]
  exact Unchanged.setMem s _

/-! ## The two outcomes of an instruction that checks -/

/-- A store at I completes, or raises an error of R109. -/
theorem storeAtI_cases {s : State} {bs : List Byte} {i : Instr} (hi : WritesMemory i) (hn : accessedBytes i = bs.length)
    (hpos : 0 < bs.length) : (∃ t, storeAtI s bs = .ok t) ∨ (∃ e, storeAtI s bs = .error e ∧ RaisedBy s i e) := by
  rcases checkAccess_cases s.cfg .write s.i.toNat bs.length with ⟨hb, h⟩ | ⟨hb, -, h⟩ | ⟨hb, -, hg⟩
  · exact .inr ⟨_, by rw [storeAtI, h], .bounds i (by omega) (by omega)⟩
  · exact .inr ⟨_, by rw [storeAtI, h], .glyph i _ hi (by omega)⟩
  · exact .inl (storeAtI_ok hpos (by simp only [memSize]; omega) (hg rfl))

/-- A load from I completes, or raises an error of R109. -/
theorem loadFromI_cases {s : State} {m : Nat} {i : Instr} (hn : accessedBytes i = m) (hpos : 0 < m) :
    (s.i.toNat + m ≤ memSize ∧ loadFromI s m = .ok ((List.range m).map fun k => s.readByte (s.i.toNat + k))) ∨
    (∃ e, loadFromI s m = .error e ∧ RaisedBy s i e) := by
  rcases Nat.lt_or_ge 0xFFF (s.i.toNat + m - 1) with h | h
  · exact .inr ⟨_, loadFromI_error h, .bounds i (by omega) (by omega)⟩
  · have hb : s.i.toNat + m ≤ memSize := by simp only [memSize]; omega
    exact .inl ⟨hb, loadFromI_ok hb⟩

/-! ## Every instruction -/

/-- What instruction `i` can do from `s` (PC already advanced): it completes and changes only its own items and registers,
memory only by the checked store of as many bytes as it accesses; or its cycle fails with an error its rule raises. -/
def CompletesOrFails (i : Instr) (s : State) (o : Host.Outcome State Fault Refusal) : Prop :=
  (∃ t, o = .next t ∧
    (t.mem = s.mem ∨ WritesMemory i ∧ ∃ bs, bs.length = accessedBytes i ∧ storeAtI s bs = .ok t) ∧
    Unchanged (writtenItems i) (writtenRegs s.cfg i) s t) ∨
  (∃ e, o = .next (failCycle s.cycleStart (some (encode i)) e) ∧ RaisedBy s i e)

/-- An instruction with no check of its own completes. -/
theorem CompletesOrFails.next {i : Instr} {s t : State} (hm : t.mem = s.mem)
    (hu : Unchanged (writtenItems i) (writtenRegs s.cfg i) s t) : CompletesOrFails i s (.next t) :=
  .inl ⟨t, rfl, .inl hm, hu⟩

/-- An instruction whose check raises `e` fails. -/
theorem CompletesOrFails.error {i : Instr} {s : State} {e : Raised} (h : RaisedBy s i e) :
    CompletesOrFails i s (settle s (encode i) (.error e)) := .inr ⟨e, rfl, h⟩

/-- The two instructions that store. -/
theorem CompletesOrFails.store {i : Instr} {s : State} {bs : List Byte} (hi : WritesMemory i)
    (hn : accessedBytes i = bs.length) (hpos : 0 < bs.length) (hit : writtenItems i = [.memory])
    (hr : writtenRegs s.cfg i = []) : CompletesOrFails i s (settle s (encode i) (storeAtI s bs)) := by
  rcases storeAtI_cases (s := s) hi hn hpos with ⟨t, ht⟩ | ⟨e, he, hraised⟩
  · rw [ht]
    exact .inl ⟨t, rfl, .inr ⟨hi, bs, hn.symm, ht⟩, by rw [hit, hr]; exact Unchanged.storeAtI ht⟩
  · rw [he]
    exact .error hraised

/-- The two instructions that test a key. -/
theorem CompletesOrFails.key {i : Instr} {s : State} {x : Reg} (f : Fin 16 → Bool)
    (hr : writtenRegs s.cfg i = []) (hit : writtenItems i = [.pc])
    (hraised : 0x0F < (s.getV x).toNat → RaisedBy s i (.keyIndex (s.getV x).toNat)) :
    CompletesOrFails i s (settle s (encode i) (match keyIndex (s.getV x) with
      | .error e => .error e
      | .ok k => .ok (skipIf s (f k)))) := by
  rcases Nat.lt_or_ge (s.getV x).toNat 16 with hlt | hge
  · rw [keyIndex_ok ⟨_, hlt⟩ rfl]
    exact .next (skipIf_mem _ _) (by rw [hit, hr]; exact Unchanged.skipIf s _)
  · rw [keyIndex_error (by omega)]
    exact .error (hraised (by omega))

/-- Every instruction, in every state, completes or fails. -/
theorem exec_cases (i : Instr) (s : State) : CompletesOrFails i s (exec i s) := by
  cases i with
  | cls => exact .next rfl (((Unchanged.setDisplay s _).mono (by simp [writtenItems]) (by simp)).trans
      ((Unchanged.setRedraw _ true).mono (by simp [writtenItems]) (by simp)))
  | ret =>
    rcases pop_cases (s := s) rfl with ⟨h0, e⟩ | ⟨k, -, e⟩
    · simp only [exec, execRet, e]
      exact .error (.underflow h0)
    · simp only [exec, execRet, e]
      exact .next rfl (((Unchanged.setStack s _ _).mono (by simp [writtenItems]) (by simp)).trans
        ((Unchanged.setPC _ _).mono (by simp [writtenItems]) (by simp)))
  | jp nnn => exact .next rfl (Unchanged.setPC s _)
  | call nnn =>
    rcases Nat.lt_or_ge s.sp.val 16 with hlt | hge
    · simp only [exec, execCall, push_ok s.pc hlt]
      exact .next rfl (((Unchanged.setStack s _ _).mono (by simp [writtenItems]) (by simp)).trans
        ((Unchanged.setPC _ _).mono (by simp [writtenItems]) (by simp)))
    · have h16 : s.sp.val = 16 := by omega
      simp only [exec, execCall, push_overflow s.pc h16]
      exact .error (.overflow nnn h16)
  | seImm x nn => exact .next (skipIf_mem _ _) (Unchanged.skipIf s _)
  | sneImm x nn => exact .next (skipIf_mem _ _) (Unchanged.skipIf s _)
  | seReg x y => exact .next (skipIf_mem _ _) (Unchanged.skipIf s _)
  | sneReg x y => exact .next (skipIf_mem _ _) (Unchanged.skipIf s _)
  | ldImm x nn => exact .next rfl (Unchanged.setV s x _)
  | addImm x nn => exact .next rfl (Unchanged.setV s x _)
  | ldReg x y => exact .next rfl (Unchanged.setV s x _)
  | orReg x y => exact .next (writeLogic_mem _ _ _) (Unchanged.writeLogic s x _)
  | andReg x y => exact .next (writeLogic_mem _ _ _) (Unchanged.writeLogic s x _)
  | xorReg x y => exact .next (writeLogic_mem _ _ _) (Unchanged.writeLogic s x _)
  | addReg x y => exact .next rfl (Unchanged.writeWithFlag s x _ _)
  | subReg x y => exact .next rfl (Unchanged.writeWithFlag s x _ _)
  | shr x y => exact .next rfl (Unchanged.writeWithFlag s x _ _)
  | subnReg x y => exact .next rfl (Unchanged.writeWithFlag s x _ _)
  | shl x y => exact .next rfl (Unchanged.writeWithFlag s x _ _)
  | ldI nnn => exact .next rfl (Unchanged.setI s _)
  | jpV0 nnn => exact .next rfl (Unchanged.setPC s _)
  | rnd x nn => exact .next rfl (((Unchanged.setV s x _).mono (by simp) (by simp [writtenRegs])).trans
      ((Unchanged.countDraw _).mono (by simp [writtenItems]) (by simp)))
  | drw x y n =>
    by_cases h : n.val = 0 ∨ s.i.toNat + n.val ≤ memSize
    · simp only [exec, execDrw, spriteRows_ok h]
      exact .next rfl (Unchanged.drawSprite s _ _ _)
    · simp only [memSize] at h
      simp only [exec, execDrw, spriteRows_error (s := s) (n := n) (by omega) (by omega)]
      exact .error (.bounds _ (by simp only [accessedBytes]; omega) (by simp only [accessedBytes]; omega))
  | skp x => exact .key (fun k => s.keyDown k) rfl rfl (.keyDown x)
  | sknp x => exact .key (fun k => !s.keyDown k) rfl rfl (.keyUp x)
  | ldVxDt x => exact .next rfl (Unchanged.setV s x _)
  | ldVxK x => exact .next rfl (((Unchanged.setWaitReg s x).mono (by simp [writtenItems]) (by simp)).trans
      ((Unchanged.setState _ _).mono (by simp [writtenItems]) (by simp)))
  | ldDtVx x => exact .next rfl (Unchanged.setDT s _)
  | ldStVx x => exact .next rfl (Unchanged.setST s _)
  | addIVx x => exact .next rfl (Unchanged.setI s _)
  | ldFVx x => exact .next rfl (Unchanged.setI s _)
  | ldBVx x => exact .store ⟨x, .inl rfl⟩ rfl (by simp [decimalDigits]) rfl rfl
  | ldMemVx x => exact .store ⟨x, .inr rfl⟩ (by simp [accessedBytes]) (by simp) rfl rfl
  | ldVxMem x =>
    rcases loadFromI_cases (s := s) (m := x.val + 1) (i := .ldVxMem x) rfl (Nat.succ_pos _) with ⟨-, h⟩ | ⟨e, h, hr⟩
    · simp only [exec, execLdRegs, h]
      exact .next (by rw [setRegsFrom_eq]) (Unchanged.setRegsFrom s x _ (by simp))
    · simp only [exec, execLdRegs, h]
      exact .error hr

/-- What an instruction does to memory: its canonical form is kept, the glyph table too, and only the bytes that a storing
instruction accesses can change (20_memory.md R44, R51). -/
theorem exec_memory {i : Instr} {s t : State} (hw : Memory.wf s.cfg s.mem) (h : exec i s = .next t) :
    Memory.wf t.cfg t.mem ∧ t.cfg = s.cfg ∧ (∀ x, InGlyphTable s.cfg x → t.readByte x = s.readByte x) ∧
    (∀ a, t.readByte a ≠ s.readByte a → WritesMemory i ∧ s.i.toNat ≤ a ∧ a < s.i.toNat + accessedBytes i) := by
  rcases exec_cases i s with ⟨t', h', hm, hu⟩ | ⟨e', h', hr⟩
  · rw [h'] at h; cases h
    rcases hm with hm | ⟨hwm, bs, hl, hst⟩
    · have hb : ∀ a, t.readByte a = s.readByte a := fun a => by simp [State.readByte, hu.cfg, hm]
      exact ⟨by rw [hu.cfg, hm]; exact hw, hu.cfg, fun x _ => hb x, fun a ha => absurd (hb a) ha⟩
    · obtain ⟨h1, h2, h3, h4, h5, h6⟩ := writeBytes_spec (storeAtI_inv hst) hw
      refine ⟨h2, hu.cfg, h5, fun a ha => ⟨hwm, ?_⟩⟩
      by_contra hc
      exact ha (h4 a (by omega))
  · rw [h'] at h; cases h
    exact ⟨hw, rfl, fun _ _ => rfl, fun a ha => absurd rfl ha⟩

end Sys2Proof.Machine
end

