-- ==== Sys2Proof/Laws/Host.lean ====
section
/-! SUPPORT. The host's operations: the copy of a program image (spec 70_reset_and_hazards.md R151), the permission to load
(R152) and runs (R155). -/

namespace Sys2Proof.Machine

/-- What the copy of an image that fits does: it changes memory only, keeps its form, stores the bytes in order and leaves
every other byte alone. -/
theorem copyImage_spec {s : State} {a : Nat} {bs : List Byte} (hb : a + bs.length ≤ memSize)
    (hw : Memory.wf s.cfg s.mem) :
    copyImage s a bs = s.setMem (copyImage s a bs).mem ∧ Memory.wf s.cfg (copyImage s a bs).mem ∧
      (∀ k (hk : k < bs.length), (copyImage s a bs).readByte (a + k) = bs[k]) ∧
      (∀ x, (x < a ∨ a + bs.length ≤ x) → (copyImage s a bs).readByte x = s.readByte x) := by
  induction bs generalizing s a with
  | nil => exact ⟨rfl, hw, by simp, by simp [copyImage]⟩
  | cons b bs ih =>
    simp only [List.length_cons] at hb
    have hw' := State.writeByte_wf hw (a := a) (by omega) b
    obtain ⟨h1, h2, h3, h4⟩ := ih (s := s.writeByte a b) (a := a+1) (by omega) hw'
    have hr := State.readByte_writeByte hw a b
    simp only [copyImage]
    refine ⟨by rw [h1]; rfl, h2, ?_, ?_⟩
    · intro k hk
      cases k with
      | zero => rw [h4 _ (by omega), hr]; simp
      | succ k => rw [show a + (k + 1) = a + 1 + k by omega]; exact h3 k (by simpa using hk)
    · intro x hx
      simp only [List.length_cons] at hx
      rw [h4 x (by omega), hr, if_neg (by omega)]

/-- An operation other than reset either uses up the permission to load, as step and loadProgram do, or leaves it. -/
theorem Session.perform_loadable {u u' : Session} {op : HostOp} (h : u.perform op = .next u') (hr : op ≠ .reset) :
    (op = .step ∨ ∃ e, op = .loadProgram e) ∧ u'.loadable = false ∨
    ¬ (op = .step ∨ ∃ e, op = .loadProgram e) ∧ u'.loadable = u.loadable := by
  cases op <;> simp only [Session.perform] at h <;> try (first | (cases h; simp) | (split at h <;> cases h))
  all_goals simp_all

/-- The operations of a run one after another: a run of `ops ++ ops'` is a run of `ops` and then of `ops'`. -/
theorem Session.run_append {u v : Session} {ops : List HostOp} (h : u.run ops = .next v) (ops' : List HostOp) :
    u.run (ops ++ ops') = v.run ops' := by
  induction ops generalizing u with
  | nil => cases h; rfl
  | cons op ops ih =>
    simp only [Session.run, List.cons_append] at h ⊢
    cases hp : u.perform op with
    | next w => rw [hp] at h; exact ih h
    | fault e => rw [hp] at h; cases h
    | refused r => rw [hp] at h; cases h

/-- The beginning of length `n + 1` of an infinite sequence. -/
theorem firstOps_succ (ops : Nat → HostOp) (n : Nat) : firstOps ops (n + 1) = firstOps ops n ++ [ops n] := by
  simp [firstOps, List.range_succ]

/-- The session's step is the machine's, and uses up the permission to load. -/
theorem Session.perform_step {u : Session} {t : State} (h : Machine.step u.machine = .next t) :
    u.perform .step = .next ⟨t, false⟩ := by
  simp only [Session.perform, h]

end Sys2Proof.Machine
end

