-- ==== Sys2Proof/Laws/PerInstr.lean ====
section
/-! SUPPORT. One fact for every instruction, a lemma for each constructor: the word of an instruction matches the row of the
opcode map that bears its mnemonic (spec 30_encoding.md R63). -/

namespace Sys2Proof.Laws.MatchesRow

/-- The word of `i` matches the row of its mnemonic (R63). -/
def Statement (i : Instr) : Prop := ∃ r ∈ opcodeTable, r.mnemonic = i.mnemonic ∧ r.Matches (encode i)

/-- A row of mask 0xF000, for the format F_NNN. -/
theorem of_nnn {r : OpcodeRow} {f : Nat} (hf : f < 16) (hm : r.mask = 0xF000) (hb : r.bits.toNat = f * 0x1000)
    (nnn : Addr12) : r.Matches (encodeNnn f nnn) := by
  apply BitVec.eq_of_toNat_eq
  rw [hm, hb, toNat_mask_F000, (fields_encodeNnn hf nnn).1]

/-- A row of mask 0xF000, for the format F_XNN. -/
theorem of_xnn {r : OpcodeRow} {f : Nat} (hf : f < 16) (hm : r.mask = 0xF000) (hb : r.bits.toNat = f * 0x1000)
    (x : Reg) (nn : Byte) : r.Matches (encodeXnn f x nn) := by
  apply BitVec.eq_of_toNat_eq
  rw [hm, hb, toNat_mask_F000, (fields_encodeXnn hf x nn).1]

/-- A row of mask 0xF000, for the format F_XYN. -/
theorem of_xyn {r : OpcodeRow} {f n : Nat} (hf : f < 16) (hn : n < 16) (hm : r.mask = 0xF000)
    (hb : r.bits.toNat = f * 0x1000) (x y : Reg) : r.Matches (encodeXyn f x y n) := by
  apply BitVec.eq_of_toNat_eq
  rw [hm, hb, toNat_mask_F000, (fields_encodeXyn hf hn x y).1]

/-- A row of mask 0xF00F, for the format F_XY. -/
theorem of_xy {r : OpcodeRow} {f n : Nat} (hf : f < 16) (hn : n < 16) (hm : r.mask = 0xF00F)
    (hb : r.bits.toNat = f * 0x1000 + n) (x y : Reg) : r.Matches (encodeXyn f x y n) := by
  apply BitVec.eq_of_toNat_eq
  rw [hm, hb, toNat_mask_F00F, (fields_encodeXyn hf hn x y).1, (fields_encodeXyn hf hn x y).2.2.2]

/-- A row of mask 0xF0FF, for the format F_X. -/
theorem of_x {r : OpcodeRow} {f low : Nat} (hf : f < 16) (hl : low < 0x100) (hm : r.mask = 0xF0FF)
    (hb : r.bits.toNat = f * 0x1000 + low) (x : Reg) : r.Matches (encodeX f x low) := by
  apply BitVec.eq_of_toNat_eq
  rw [hm, hb, toNat_mask_F0FF, (fields_encodeX hf hl x).1, (fields_encodeX hf hl x).2.2]

theorem cls : Statement .cls :=
  ⟨⟨"CLS", 0x00E0, 0xFFFF⟩, by decide, rfl, by decide⟩

theorem ret : Statement .ret :=
  ⟨⟨"RET", 0x00EE, 0xFFFF⟩, by decide, rfl, by decide⟩

theorem jp (nnn : Addr12) : Statement (.jp nnn) :=
  ⟨⟨"JP", 0x1000, 0xF000⟩, by decide, rfl, of_nnn (by decide) rfl rfl nnn⟩

theorem call (nnn : Addr12) : Statement (.call nnn) :=
  ⟨⟨"CALL", 0x2000, 0xF000⟩, by decide, rfl, of_nnn (by decide) rfl rfl nnn⟩

theorem seImm (x : Reg) (nn : Byte) : Statement (.seImm x nn) :=
  ⟨⟨"SE_IMM", 0x3000, 0xF000⟩, by decide, rfl, of_xnn (by decide) rfl rfl x nn⟩

theorem sneImm (x : Reg) (nn : Byte) : Statement (.sneImm x nn) :=
  ⟨⟨"SNE_IMM", 0x4000, 0xF000⟩, by decide, rfl, of_xnn (by decide) rfl rfl x nn⟩

theorem seReg (x : Reg) (y : Reg) : Statement (.seReg x y) :=
  ⟨⟨"SE_REG", 0x5000, 0xF00F⟩, by decide, rfl, of_xy (by decide) (by decide) rfl rfl x y⟩

theorem ldImm (x : Reg) (nn : Byte) : Statement (.ldImm x nn) :=
  ⟨⟨"LD_IMM", 0x6000, 0xF000⟩, by decide, rfl, of_xnn (by decide) rfl rfl x nn⟩

theorem addImm (x : Reg) (nn : Byte) : Statement (.addImm x nn) :=
  ⟨⟨"ADD_IMM", 0x7000, 0xF000⟩, by decide, rfl, of_xnn (by decide) rfl rfl x nn⟩

theorem ldReg (x : Reg) (y : Reg) : Statement (.ldReg x y) :=
  ⟨⟨"LD_REG", 0x8000, 0xF00F⟩, by decide, rfl, of_xy (by decide) (by decide) rfl rfl x y⟩

theorem orReg (x : Reg) (y : Reg) : Statement (.orReg x y) :=
  ⟨⟨"OR", 0x8001, 0xF00F⟩, by decide, rfl, of_xy (by decide) (by decide) rfl rfl x y⟩

theorem andReg (x : Reg) (y : Reg) : Statement (.andReg x y) :=
  ⟨⟨"AND", 0x8002, 0xF00F⟩, by decide, rfl, of_xy (by decide) (by decide) rfl rfl x y⟩

theorem xorReg (x : Reg) (y : Reg) : Statement (.xorReg x y) :=
  ⟨⟨"XOR", 0x8003, 0xF00F⟩, by decide, rfl, of_xy (by decide) (by decide) rfl rfl x y⟩

theorem addReg (x : Reg) (y : Reg) : Statement (.addReg x y) :=
  ⟨⟨"ADD_REG", 0x8004, 0xF00F⟩, by decide, rfl, of_xy (by decide) (by decide) rfl rfl x y⟩

theorem subReg (x : Reg) (y : Reg) : Statement (.subReg x y) :=
  ⟨⟨"SUB", 0x8005, 0xF00F⟩, by decide, rfl, of_xy (by decide) (by decide) rfl rfl x y⟩

theorem shr (x : Reg) (y : Reg) : Statement (.shr x y) :=
  ⟨⟨"SHR", 0x8006, 0xF00F⟩, by decide, rfl, of_xy (by decide) (by decide) rfl rfl x y⟩

theorem subnReg (x : Reg) (y : Reg) : Statement (.subnReg x y) :=
  ⟨⟨"SUBN", 0x8007, 0xF00F⟩, by decide, rfl, of_xy (by decide) (by decide) rfl rfl x y⟩

theorem shl (x : Reg) (y : Reg) : Statement (.shl x y) :=
  ⟨⟨"SHL", 0x800E, 0xF00F⟩, by decide, rfl, of_xy (by decide) (by decide) rfl rfl x y⟩

theorem sneReg (x : Reg) (y : Reg) : Statement (.sneReg x y) :=
  ⟨⟨"SNE_REG", 0x9000, 0xF00F⟩, by decide, rfl, of_xy (by decide) (by decide) rfl rfl x y⟩

theorem ldI (nnn : Addr12) : Statement (.ldI nnn) :=
  ⟨⟨"LD_I", 0xA000, 0xF000⟩, by decide, rfl, of_nnn (by decide) rfl rfl nnn⟩

theorem jpV0 (nnn : Addr12) : Statement (.jpV0 nnn) :=
  ⟨⟨"JP_V0", 0xB000, 0xF000⟩, by decide, rfl, of_nnn (by decide) rfl rfl nnn⟩

theorem rnd (x : Reg) (nn : Byte) : Statement (.rnd x nn) :=
  ⟨⟨"RND", 0xC000, 0xF000⟩, by decide, rfl, of_xnn (by decide) rfl rfl x nn⟩

theorem drw (x : Reg) (y : Reg) (n : RowCount) : Statement (.drw x y n) :=
  ⟨⟨"DRW", 0xD000, 0xF000⟩, by decide, rfl, of_xyn (by decide) n.isLt rfl rfl x y⟩

theorem skp (x : Reg) : Statement (.skp x) :=
  ⟨⟨"SKP", 0xE09E, 0xF0FF⟩, by decide, rfl, of_x (by decide) (by decide) rfl rfl x⟩

theorem sknp (x : Reg) : Statement (.sknp x) :=
  ⟨⟨"SKNP", 0xE0A1, 0xF0FF⟩, by decide, rfl, of_x (by decide) (by decide) rfl rfl x⟩

theorem ldVxDt (x : Reg) : Statement (.ldVxDt x) :=
  ⟨⟨"LD_VX_DT", 0xF007, 0xF0FF⟩, by decide, rfl, of_x (by decide) (by decide) rfl rfl x⟩

theorem ldVxK (x : Reg) : Statement (.ldVxK x) :=
  ⟨⟨"LD_VX_K", 0xF00A, 0xF0FF⟩, by decide, rfl, of_x (by decide) (by decide) rfl rfl x⟩

theorem ldDtVx (x : Reg) : Statement (.ldDtVx x) :=
  ⟨⟨"LD_DT_VX", 0xF015, 0xF0FF⟩, by decide, rfl, of_x (by decide) (by decide) rfl rfl x⟩

theorem ldStVx (x : Reg) : Statement (.ldStVx x) :=
  ⟨⟨"LD_ST_VX", 0xF018, 0xF0FF⟩, by decide, rfl, of_x (by decide) (by decide) rfl rfl x⟩

theorem addIVx (x : Reg) : Statement (.addIVx x) :=
  ⟨⟨"ADD_I_VX", 0xF01E, 0xF0FF⟩, by decide, rfl, of_x (by decide) (by decide) rfl rfl x⟩

theorem ldFVx (x : Reg) : Statement (.ldFVx x) :=
  ⟨⟨"LD_F_VX", 0xF029, 0xF0FF⟩, by decide, rfl, of_x (by decide) (by decide) rfl rfl x⟩

theorem ldBVx (x : Reg) : Statement (.ldBVx x) :=
  ⟨⟨"LD_B_VX", 0xF033, 0xF0FF⟩, by decide, rfl, of_x (by decide) (by decide) rfl rfl x⟩

theorem ldMemVx (x : Reg) : Statement (.ldMemVx x) :=
  ⟨⟨"LD_MEM_VX", 0xF055, 0xF0FF⟩, by decide, rfl, of_x (by decide) (by decide) rfl rfl x⟩

theorem ldVxMem (x : Reg) : Statement (.ldVxMem x) :=
  ⟨⟨"LD_VX_MEM", 0xF065, 0xF0FF⟩, by decide, rfl, of_x (by decide) (by decide) rfl rfl x⟩

end Sys2Proof.Laws.MatchesRow
end

