-- ==== Sys2Proof/Tests/Slice0.lean ====
section
/-! SUPPORT. Tests: the ill-formed inputs that WellFormed refuses; decoding of words written out from the spec's encodings;
the vectors of spec/95_test_vectors.md, one step each; and a witness for the hypotheses of every statement. Expected values
are the spec's, named in each comment, never the model's. -/

namespace Sys2Proof.Tests

open Sys2Proof Sys2Proof.Machine

/-! ## Ill-formed inputs -/

/-- A glyph table that would reach past 0x1FF (00_scope.md R9: GLYPH_BASE is at most 0x1B0). -/
theorem test_glyph_base_too_high : ¬ Config.WellFormed { Config.spec with glyphBase := 0x1B1 } := by decide

/-- The highest legal GLYPH_BASE. -/
theorem test_glyph_base_highest : Config.WellFormed { Config.spec with glyphBase := 0x1B0 } := by decide

/-- A glyph table of 79 bytes. -/
theorem test_glyph_bytes_too_few : ¬ Config.WellFormed { Config.spec with glyphBytes := Config.font.dropLast } := by decide

/-- The spec's own parameters are legal. -/
theorem test_spec_parameters : Config.WellFormed Config.spec := by decide

/-- Key codes 0x0 to 0xF only (60_exceptions.md R140). -/
theorem test_key_code : KeyCodeWellFormed 0xF ∧ ¬ KeyCodeWellFormed 0x10 := by decide

/-- A program image of one byte too many (V-RST-2), and the longest one (V-RST-3). -/
theorem test_image_length :
    ¬ ImageWellFormed (List.replicate 3585 0x12) ∧ ImageWellFormed (List.replicate 3584 0x12) := by
  unfold ImageWellFormed maxProgram
  rw [List.length_replicate, List.length_replicate]
  decide

/-! ## Decoding: words written out from the encodings of 30_encoding.md R63, field by field -/

theorem test_decode_control :
    decode 0b0000000011101110 = .ok .ret ∧
    decode 0b0001101010111100 = .ok (.jp 0xABC) ∧ decode 0b0010101010111100 = .ok (.call 0xABC) ∧
    decode 0b0011000100010010 = .ok (.seImm 1 0x12) ∧ decode 0b0100000100010010 = .ok (.sneImm 1 0x12) ∧
    decode 0b0101000100100000 = .ok (.seReg 1 2) ∧ decode 0b1001000100100000 = .ok (.sneReg 1 2) ∧
    decode 0b1011010100000000 = .ok (.jpV0 0x500) := by decide

theorem test_decode_alu :
    decode 0b0110101001000010 = .ok (.ldImm 10 0x42) ∧ decode 0b0111000000000001 = .ok (.addImm 0 0x01) ∧
    decode 0b1000000100100000 = .ok (.ldReg 1 2) ∧ decode 0b1000000100100001 = .ok (.orReg 1 2) ∧
    decode 0b1000000100100010 = .ok (.andReg 1 2) ∧ decode 0b1000000100100011 = .ok (.xorReg 1 2) ∧
    decode 0b1000000100100100 = .ok (.addReg 1 2) ∧ decode 0b1000000100100101 = .ok (.subReg 1 2) ∧
    decode 0b1000000100100110 = .ok (.shr 1 2) ∧ decode 0b1000000100100111 = .ok (.subnReg 1 2) ∧
    decode 0b1000000100101110 = .ok (.shl 1 2) ∧ decode 0b1100000100001111 = .ok (.rnd 1 0x0F) := by decide

theorem test_decode_index_memory :
    decode 0b1010001000001010 = .ok (.ldI 0x20A) ∧ decode 0b1111000100011110 = .ok (.addIVx 1) ∧
    decode 0b1111000100101001 = .ok (.ldFVx 1) ∧ decode 0b1111000100110011 = .ok (.ldBVx 1) ∧
    decode 0b1111000101010101 = .ok (.ldMemVx 1) ∧ decode 0b1111000101100101 = .ok (.ldVxMem 1) := by decide

theorem test_decode_display :
    decode 0b0000000011100000 = .ok .cls ∧ decode 0b1101000100100101 = .ok (.drw 1 2 5) := by decide

theorem test_decode_keys_timers :
    decode 0b1110000110011110 = .ok (.skp 1) ∧ decode 0b1110000110100001 = .ok (.sknp 1) ∧
    decode 0b1111000100000111 = .ok (.ldVxDt 1) ∧ decode 0b1111000100001010 = .ok (.ldVxK 1) ∧
    decode 0b1111000100010101 = .ok (.ldDtVx 1) ∧ decode 0b1111000100011000 = .ok (.ldStVx 1) := by decide

/-- V-DEC-1 to V-DEC-11: words that are no instruction. -/
theorem test_decode_unknown :
    decode 0x0000 = .error (.unknownOpcode 0x0000) ∧ decode 0x00E1 = .error (.unknownOpcode 0x00E1) ∧
    decode 0x0123 = .error (.unknownOpcode 0x0123) ∧ decode 0x5121 = .error (.unknownOpcode 0x5121) ∧
    decode 0x8008 = .error (.unknownOpcode 0x8008) ∧ decode 0x800F = .error (.unknownOpcode 0x800F) ∧
    decode 0x9121 = .error (.unknownOpcode 0x9121) ∧ decode 0xE09F = .error (.unknownOpcode 0xE09F) ∧
    decode 0xF000 = .error (.unknownOpcode 0xF000) ∧ decode 0xFFFF = .error (.unknownOpcode 0xFFFF) ∧
    decode 0xF0FF = .error (.unknownOpcode 0xF0FF) := by decide

/-- An instruction needs two bytes. -/
theorem test_decode_truncated : decodeBytes [0x00] = .error .truncated ∧
    decodeBytes [0x00, 0xE0, 0x12] = .ok (.cls, [0x12]) := by decide

/-- The host's entry to the decoder, with one word for V-ALU-9 and one for V-DEC-5. -/
theorem test_decode_table_word :
    decodeTableWord 16 0x8124 = some (.addReg 1 2) ∧ decodeTableWord 16 0x8008 = none := by decide

/-- V-DEC-13: the rows of R63 have 43954 words between them. -/
theorem test_opcode_map_size :
    (opcodeTable.map fun r => 2 ^ ((List.range 16).countP fun b => !r.mask.getLsbD b)).sum = 43954 := by decide

/-- V-DEC-14: two rows of R63 differ in a bit that both fix, so no word matches two rows. -/
theorem test_opcode_map_disjoint :
    opcodeTable.Pairwise fun r r' => (r.bits ^^^ r'.bits) &&& (r.mask &&& r'.mask) ≠ 0 := by decide

/-! ## One step from the launch state -/

/-- The launch state of spec/95_test_vectors.md: after reset() and loadProgram() of one instruction word. -/
def launch (op : Word) : State := loadProgram State.reset (bytesOfWord op)

/-- Look at the next state of an outcome. -/
def look {α : Type} (o : Host.Outcome State Fault Refusal) (f : State → α) : Option α :=
  match o with
  | .next t => some (f t)
  | .fault _ => none
  | .refused _ => none

/-- A step whose cycle fails ends HALTED with this record, and with the program counter it had. -/
def failsWith (s : State) (e : ErrorRecord) : Bool :=
  look (step s) (fun t => (t.err, t.state, t.pc)) = some (some e, .halted, s.pc)

/-- The display with exactly these cells set. -/
def cells (set : List (Fin 64 × Fin 32)) : Display := set.foldl (fun d p => d.setCell p.1 p.2 true) Display.clear

/-- A pop from the second entry of a stack: V-CF-2. -/
def stackTwo : State := ((launch 0x00EE).setStack ((launch 0x00EE).stack.set 0 0x222 |>.set 1 0x444) 2)

/-- V-CF-2: 00EE. -/
theorem test_ret_pops :
    look (step (stackTwo)) (fun t => (t.pc, t.sp)) = some (0x0444, 1) := by decide

/-- V-CF-1: 00EE on an empty stack. -/
theorem test_ret_underflow :
    failsWith (launch 0x00EE) ⟨.stackUnderflow, some 0x200, some 0x00EE, none, none⟩ = true := by decide

/-- V-CF-3: 1ABC. -/
theorem test_jp :
    look (step (launch 0x1ABC)) (fun t => t.pc) = some 0x0ABC := by decide

/-- V-CF-4: 2ABC at depth 3. -/
theorem test_call :
    look (step ((launch 0x2ABC).setStack (launch 0x2ABC).stack 3))
      (fun t => (t.pc, t.sp, t.stack[3])) = some (0x0ABC, 4, 0x0202) := by decide

/-- V-CF-5: 2ABC at depth 16. -/
theorem test_call_overflow :
    failsWith ((launch 0x2ABC).setStack (launch 0x2ABC).stack 16)
      ⟨.stackOverflow, some 0x200, some 0x2ABC, none, none⟩ = true := by decide

/-- V-CF-6. -/
theorem test_seImm_skips :
    look (step ((launch 0x3112).setV 1 0x12)) (fun t => t.pc) = some 0x204 := by decide

/-- V-CF-7. -/
theorem test_seImm_goes_on :
    look (step ((launch 0x3113).setV 1 0x12)) (fun t => t.pc) = some 0x202 := by decide

/-- V-CF-8. -/
theorem test_sneImm_goes_on :
    look (step ((launch 0x4112).setV 1 0x12)) (fun t => t.pc) = some 0x202 := by decide

/-- V-CF-9. -/
theorem test_sneImm_skips :
    look (step ((launch 0x4113).setV 1 0x12)) (fun t => t.pc) = some 0x204 := by decide

/-- V-CF-10. -/
theorem test_seReg_same_register :
    look (step (launch 0x5110)) (fun t => t.pc) = some 0x204 := by decide

/-- 5120 with V1 = 0x40, V2 = 0x41 (41_control_flow.md R91). -/
theorem test_seReg_goes_on :
    look (step (((launch 0x5120).setV 1 0x40).setV 2 0x41)) (fun t => t.pc) = some 0x202 := by decide

/-- V-CF-11. -/
theorem test_sneReg_goes_on :
    look (step (((launch 0x9120).setV 1 3).setV 2 3)) (fun t => t.pc) = some 0x202 := by decide

/-- V-CF-12. -/
theorem test_sneReg_skips :
    look (step (((launch 0x9120).setV 1 0x40).setV 2 0x41)) (fun t => t.pc) = some 0x204 := by decide

/-- V-CF-13. -/
theorem test_jpV0_ignores_x :
    look (step (((launch 0xB500).setV 0 1).setV 5 9)) (fun t => t.pc) = some 0x0501 := by decide

/-- V-CF-14. -/
theorem test_jpV0_highest :
    look (step ((launch 0xBFFF).setV 0 0xFF)) (fun t => t.pc) = some 0x10FE := by decide

/-- V-ALU-1. -/
theorem test_ldImm :
    look (step (launch 0x6A42)) (fun t => (t.getV 10, t.pc)) = some (0x42, 0x202) := by decide

/-- V-ALU-2: no carry flag. -/
theorem test_addImm_wraps :
    look (step (((launch 0x7001).setV 0 0xFF).setV 15 0x55))
      (fun t => (t.getV 0, t.getV 15)) = some (0x00, 0x55) := by decide

/-- V-ALU-3. -/
theorem test_addImm_to_VF :
    look (step ((launch 0x7F01).setV 15 0xFF)) (fun t => t.getV 15) = some 0x00 := by decide

/-- V-ALU-4. -/
theorem test_ldReg :
    look (step (((launch 0x8120).setV 2 0x7B).setV 15 0x55))
      (fun t => (t.getV 1, t.getV 15)) = some (0x7B, 0x55) := by decide

/-- V-ALU-5. -/
theorem test_orReg :
    look (step ((((launch 0x8121).setV 1 0x0F).setV 2 0xF0).setV 15 0x55))
      (fun t => (t.getV 1, t.getV 15)) = some (0xFF, 0x55) := by decide

/-- V-ALU-6: LOGIC_CLEARS_VF = true. -/
theorem test_orReg_clears_VF :
    look (step ({ (((launch 0x8121).setV 1 0x0F).setV 2 0xF0).setV 15 0x55
        with cfg := { Config.spec with logicClearsVF := true } }))
      (fun t => (t.getV 1, t.getV 15)) = some (0xFF, 0x00) := by decide

/-- V-ALU-7. -/
theorem test_andReg :
    look (step (((launch 0x8122).setV 1 0x3C).setV 2 0x0F)) (fun t => t.getV 1) = some 0x0C := by decide

/-- V-ALU-8. -/
theorem test_xorReg_same_register :
    look (step ((launch 0x8113).setV 1 0x5A)) (fun t => t.getV 1) = some 0x00 := by decide

/-- V-ALU-9. -/
theorem test_addReg_carry :
    look (step (((launch 0x8124).setV 1 0xFF).setV 2 0x01))
      (fun t => (t.getV 1, t.getV 15)) = some (0x00, 1) := by decide

/-- V-ALU-12. -/
theorem test_addReg_flag_overwrites :
    look (step (((launch 0x8F14).setV 1 0xF5).setV 15 0x10)) (fun t => t.getV 15) = some 1 := by decide

/-- V-ALU-15. -/
theorem test_subReg_equal :
    look (step (((launch 0x8125).setV 1 5).setV 2 5)) (fun t => (t.getV 1, t.getV 15)) = some (0x00, 1) := by decide

/-- V-ALU-16. -/
theorem test_subReg_borrow :
    look (step (((launch 0x8125).setV 1 0).setV 2 1)) (fun t => (t.getV 1, t.getV 15)) = some (0xFF, 0) := by decide

/-- V-ALU-18. -/
theorem test_subnReg_borrow :
    look (step (((launch 0x8127).setV 1 5).setV 2 3)) (fun t => (t.getV 1, t.getV 15)) = some (0xFE, 0) := by decide

/-- V-ALU-20. -/
theorem test_subnReg_no_borrow :
    look (step (((launch 0x8127).setV 1 3).setV 2 5)) (fun t => (t.getV 1, t.getV 15)) = some (0x02, 1) := by decide

/-- V-ALU-21. -/
theorem test_shr :
    look (step ((launch 0x8106).setV 1 0x05)) (fun t => (t.getV 1, t.getV 15)) = some (0x02, 1) := by decide

/-- V-ALU-23: SHIFT_SOURCE = Vy. -/
theorem test_shr_of_Vy :
    look (step ({ ((launch 0x8126).setV 1 0xFF).setV 2 0x04 with cfg := { Config.spec with shiftSource := .vy } }))
      (fun t => (t.getV 1, t.getV 2, t.getV 15)) = some (0x02, 0x04, 0) := by decide

/-- V-ALU-25. -/
theorem test_shl :
    look (step ((launch 0x810E).setV 1 0x81)) (fun t => (t.getV 1, t.getV 15)) = some (0x02, 1) := by decide

/-- V-ALU-28. -/
theorem test_shl_flag_overwrites :
    look (step ((launch 0x8FFE).setV 15 0x80)) (fun t => t.getV 15) = some 1 := by decide

/-- V-ALU-29: what C10F does with a draw of 0xAB. -/
theorem test_rnd_masks :
    (rndWith 0xAB 1 0x0F (launch 0xC10F)).getV 1 = 0x0B := by decide

/-- V-ALU-30: C100 for any draw. -/
theorem test_rnd_mask_zero :
    look (exec (.rnd 1 0x00) (launch 0xC100))
      (fun t => t.getV 1)
      = some 0x00 := by simp [look, exec, execRnd, rndWith, State.countDraw, State.getV, State.setV]

/-- V-IM-1. -/
theorem test_ldI :
    look (step (launch 0xA20A)) (fun t => t.i) = some 0x020A := by decide

/-- V-IM-2. -/
theorem test_addI_wraps :
    look (step ((((launch 0xF11E).setV 1 2).setV 15 0x77).setI 0xFFFF))
      (fun t => (t.i, t.getV 15)) = some (0x0001, 0x77) := by decide

/-- V-IM-3. -/
theorem test_addI_beyond_memory :
    look (step (((launch 0xF11E).setV 1 1).setI 0x0FFF))
      (fun t => (t.i, t.state)) = some (0x1000, .running) := by decide

/-- V-IM-5. -/
theorem test_ldF :
    look (step ((launch 0xF129).setV 1 0x0A)) (fun t => t.i) = some 0x0032 := by decide

/-- V-IM-6. -/
theorem test_ldF_low_nibble :
    look (step ((launch 0xF129).setV 1 0xFA)) (fun t => t.i) = some 0x0032 := by decide

/-- V-IM-7. -/
theorem test_ldB :
    look (step (((launch 0xF133).setV 1 255).setI 0x300))
      (fun t => (t.readByte 0x300, t.readByte 0x301, t.readByte 0x302, t.i)) = some (2, 5, 5, 0x300) := by decide

/-- V-IM-11. -/
theorem test_ldB_glyph :
    failsWith (((launch 0xF133).setV 1 7).setI 0x04E)
      ⟨.glyphTableWrite, some 0x200, some 0xF133, some 0x04E, none⟩ = true := by decide

/-- V-IM-16. -/
theorem test_ldMem_past_the_glyphs :
    look (step (((launch 0xF055).setV 0 0xAA).setI 0x050))
      (fun t => (t.readByte 0x050, t.i)) = some (0xAA, 0x050) := by decide

/-- V-IM-12. -/
theorem test_ldMem_no_partial_write :
    failsWith ((((launch 0xF155).setV 0 1).setV 1 2).setI 0xFFF)
      ⟨.outOfBoundsMemoryAccess, some 0x200, some 0xF155, some 0x1000, none⟩ = true := by decide

/-- V-IM-18. -/
theorem test_ldRegs :
    look (step ((launch 0xF465).setI 0x000))
      (fun t => (t.getV 0, t.getV 1, t.getV 4, t.getV 5, t.i)) = some (0xF0, 0x90, 0xF0, 0x00, 0) := by decide

/-- V-IM-4. -/
theorem test_ldRegs_beyond_memory :
    failsWith ((launch 0xF065).setI 0x1000)
      ⟨.outOfBoundsMemoryAccess, some 0x200, some 0xF065, some 0x1000, none⟩ = true := by decide

/-- V-DSP-10. -/
theorem test_cls :
    look (step ((launch 0x00E0).setDisplay (cells [(1, 1), (63, 31)])))
      (fun t => (decide (t.display = cells []), t.redraw)) = some (true, true) := by decide

/-- V-DSP-1. -/
theorem test_drw_wraps :
    look (step ((((launch 0xD011).setV 0 62).setI 0x300).writeByte 0x300 0xFF))
      (fun t => (decide (t.display = cells [(62, 0), (63, 0), (0, 0), (1, 0), (2, 0), (3, 0), (4, 0), (5, 0)]), t.getV 15, t.redraw))
      = some (true, 0, true) := by
  decide

/-- V-DSP-4. -/
theorem test_drw_collision :
    look (step ((((launch 0xD011).setDisplay (cells [(0, 0)])).setI 0x300).writeByte 0x300 0xC0))
      (fun t => (decide (t.display = cells [(1, 0)]), t.getV 15)) = some (true, 1) := by decide

/-- V-KT-2. -/
theorem test_skp_down :
    look (step (((launch 0xE19E).setV 1 7).setKey 7 true)) (fun t => t.pc) = some 0x204 := by decide

/-- V-KT-3. -/
theorem test_skp_no_such_key :
    failsWith ((launch 0xE19E).setV 1 0x10)
      ⟨.keyIndexOutOfRange, some 0x200, some 0xE19E, none, some 0x10⟩ = true := by decide

/-- V-KT-4. -/
theorem test_sknp_down :
    look (step (((launch 0xE1A1).setV 1 7).setKey 7 true)) (fun t => t.pc) = some 0x202 := by decide

/-- V-KT-5. -/
theorem test_sknp_up :
    look (step ((launch 0xE1A1).setV 1 7)) (fun t => t.pc) = some 0x204 := by decide

/-- V-KT-9, its first step. -/
theorem test_ldVxK :
    look (step (launch 0xF30A))
      (fun t => (t.state, t.waitReg, t.pc, t.getV 3)) = some (.awaitingKey, 3, 0x202, 0) := by decide

/-- V-KT-11. -/
theorem test_ldVxDt :
    look (step ((launch 0xF407).setDT 0x2A)) (fun t => t.getV 4) = some 0x2A := by decide

/-- V-KT-12. -/
theorem test_ldDtVx :
    look (step ((launch 0xF315).setV 3 0x07)) (fun t => t.dt) = some 0x07 := by decide

/-- V-KT-13, its first step. -/
theorem test_ldStVx :
    look (step ((launch 0xF118).setV 1 0x3C)) (fun t => (t.st, isSoundActive t)) = some (0x3C, true) := by decide

/-! ## The cycle and the host's operations -/

/-- The wait of V-KT-7: F30A was run and keys 3 and 9 are down. -/
def waiting : State := ((((launch 0x0000).setState .awaitingKey).setWaitReg 3).setKey 3 true).setKey 9 true

/-- V-KT-7, its second step: the lowest key down. -/
theorem test_key_wait_ends : look (step waiting) (fun t => (t.getV 3, t.state, t.pc)) = some (0x03, .running, 0x200) := by
  decide

/-- V-KT-9, its second step: no key is down. -/
theorem test_key_wait_goes_on :
    look (step ((waiting.setKey 3 false).setKey 9 false))
      (fun t => decide (t = (waiting.setKey 3 false).setKey 9 false)) = some true := by decide

/-- V-CYC-3: of the word at 0xFFF the second byte is beyond memory. -/
theorem test_fetch_at_the_end :
    failsWith ((launch 0x0000).setPC 0x0FFF) ⟨.outOfBoundsMemoryAccess, some 0x0FFF, none, some 0x1000, none⟩ = true := by
  decide

/-- V-CYC-2: PC beyond memory. -/
theorem test_fetch_beyond_memory :
    failsWith ((launch 0x0000).setPC 0x1002) ⟨.outOfBoundsMemoryAccess, some 0x1002, none, some 0x1002, none⟩ = true := by
  decide

/-- V-DEC-10 and S-E: FFFF is UnknownOpcode. -/
theorem test_unknown_opcode :
    failsWith (launch 0xFFFF) ⟨.unknownOpcode, some 0x200, some 0xFFFF, none, none⟩ = true ∧
    stepResult (launch 0xFFFF) = .fail .unknownOpcode := by decide

/-- V-RST-1: a step after reset and before a load. -/
theorem test_step_before_load :
    failsWith State.reset ⟨.unknownOpcode, some 0x0000, some 0xF090, none, none⟩ = true := by decide

/-- V-RST-2: an image of 3585 bytes. -/
theorem test_rom_too_large :
    (loadProgram State.reset (List.replicate 3585 0x12)).err = some ⟨.romTooLarge, none, none, none, some 3585⟩ := by
  unfold loadProgram
  rw [if_neg test_image_length.1, List.length_replicate]
  rfl

/-- V-RST-5: memory after reset. -/
theorem test_reset_memory :
    (List.range 5).map State.reset.readByte = [0xF0, 0x90, 0x90, 0x90, 0xF0] ∧
    (List.range 5).map (fun k => State.reset.readByte (0x04B + k)) = [0xF0, 0x80, 0xF0, 0x80, 0x80] ∧
    State.reset.readByte 0x050 = 0 ∧ State.reset.readByte 0xFFF = 0 := by decide

/-- 60_exceptions.md R129: the codes of the error kinds. -/
theorem test_error_codes : Fault.unknownOpcode.code = 1 ∧ Fault.stackOverflow.code = 2 ∧ Fault.stackUnderflow.code = 3 ∧
    Fault.outOfBoundsMemoryAccess.code = 4 ∧ Fault.romTooLarge.code = 5 ∧ Fault.glyphTableWrite.code = 6 ∧
    Fault.keyIndexOutOfRange.code = 7 := by decide

/-- V-KT-15 and S-D: a tick stops at 0. -/
theorem test_tick : (tick ((launch 0x0000).setST 1)).st = 0 ∧ (tick ((launch 0x0000).setST 1)).dt = 0 ∧
    (tick ((launch 0x0000).setDT 3)).dt = 2 := by decide

/-- The word that withFetchWord places is the one the next step runs. -/
theorem test_fetch_word : look (step (State.reset.withFetchWord 16 0x6A42)) (fun t => (t.getV 10, t.pc)) = some (0x42, 0x202) := by
  decide

/-- 44_display.md R118 against the last sentence of R119 (log entry 22): a sprite of one set bit drawn twice on a cell that
was set clears the cell, then sets it again, and the second draw meets no set cell: VF = 0. -/
theorem test_draw_twice_on_a_set_cell :
    look (exec (.drw 0 1 1) ((((launch 0xD011).setDisplay (cells [(0, 0)])).setI 0x300).writeByte 0x300 0x80))
      (fun t => (decide (t.display = cells []), t.getV 15,
        look (exec (.drw 0 1 1) t) (fun u => (decide (u.display = cells [(0, 0)]), u.getV 15)))) =
    some (true, 1, some (true, 0)) := by decide

/-! ## Witnesses: states and operands that meet the hypotheses of each statement, clause by clause -/

/-- I at `a`. -/
def atI (op : Word) (a : Word) : State := (launch op).setI a

/-- With a stack of depth `n`. -/
def depth (op : Word) (n : Fin 17) : State := (launch op).setStack (launch op).stack n

/-- EncodeOfDecodedWordGivesTheWord. -/
theorem witness_decoded_word : ∃ i, decode 0xD125 = .ok i := ⟨.drw 1 2 5, by decide⟩

/-- DecodeAgreesWithTheOpcodeMap: a word that decodes, a row that matches and a word that matches no row. -/
theorem witness_opcode_map :
    decode 0xF165 = .ok (.ldVxMem 1) ∧ (⟨"LD_VX_MEM", 0xF065, 0xF0FF⟩ : OpcodeRow) ∈ opcodeTable ∧
    (⟨"LD_VX_MEM", 0xF065, 0xF0FF⟩ : OpcodeRow).Matches 0xF165 ∧ ∀ r ∈ opcodeTable, ¬ r.Matches 0x5121 := by decide

/-- StepRunsTheFetchedInstruction: at the start of a program and at the last address of a word. -/
theorem witness_runs : Runs (launch 0x8124) (.addReg 1 2) ∧
    Runs ((((launch 0x0000).setPC 0xFFE).writeByte 0xFFE 0x00).writeByte 0xFFF 0xE0) .cls :=
  ⟨⟨rfl, by decide, by decide⟩, rfl, by decide, by decide⟩

/-- FetchBeyondMemoryFailsTheCycle: the first and last PC of the first clause, and the second clause. -/
theorem witness_fetch_beyond :
    (((launch 0x0000).setPC 0x1000).state = .running ∧ 0x1000 ≤ ((launch 0x0000).setPC 0x1000).pc.toNat) ∧
    (((launch 0x0000).setPC 0xFFFF).state = .running ∧ 0x1000 ≤ ((launch 0x0000).setPC 0xFFFF).pc.toNat) ∧
    ((launch 0x0000).setPC 0xFFF).state = .running ∧ ((launch 0x0000).setPC 0xFFF).pc.toNat = 0xFFF := by decide

/-- UnmatchedWordFailsTheCycle. -/
theorem witness_unmatched : (launch 0x5121).state = .running ∧ (launch 0x5121).pc.toNat ≤ 0xFFE ∧
    ∀ r ∈ opcodeTable, ¬ r.Matches (fetchedWord (launch 0x5121)) := by decide

/-- HaltedIsTerminal. -/
theorem witness_halted : ∃ u', (⟨(launch 0x0000).setState .halted, true⟩ : Session).machine.state = .halted ∧
    HostOp.tick ≠ .reset ∧ (⟨(launch 0x0000).setState .halted, true⟩ : Session).perform .tick = .next u' :=
  ⟨_, rfl, by decide, rfl⟩

/-- KeyWaitTakesTheLowestKeyDown: the lowest key is 3, 0 or 15, or no key is down. -/
theorem witness_key_wait :
    waiting.state = .awaitingKey ∧ waiting.keyDown 3 = true ∧ (∀ j, j < 3 → waiting.keyDown j = false) ∧
    (waiting.setKey 0 true).state = .awaitingKey ∧ (waiting.setKey 0 true).keyDown 0 = true ∧
    ((((waiting.setKey 3 false).setKey 9 false).setKey 15 true).keyDown 15 = true ∧
      ∀ j, j < 15 → (((waiting.setKey 3 false).setKey 9 false).setKey 15 true).keyDown j = false) ∧
    ∀ k, ((waiting.setKey 3 false).setKey 9 false).keyDown k = false := by decide

/-- FailedCycleRestoresItsStart and ErrorRecordHoldsWhatItsKindUses: a failed fetch (no opcode), decode, check with an
address, check with a value. -/
theorem witness_failed_cycle :
    (((launch 0x0000).setPC 0x1000).state = .running ∧ ∃ t, step ((launch 0x0000).setPC 0x1000) = .next t ∧ t.state = .halted) ∧
    ((launch 0x0000).state = .running ∧ ∃ t, step (launch 0x0000) = .next t ∧ t.state = .halted) ∧
    ((atI 0xF133 0x04E).state = .running ∧ ∃ t, step (atI 0xF133 0x04E) = .next t ∧ t.state = .halted) ∧
    (((launch 0xE19E).setV 1 0xFF).state = .running ∧ ∃ t, step ((launch 0xE19E).setV 1 0xFF) = .next t ∧ t.state = .halted) :=
  ⟨⟨rfl, _, rfl, by decide⟩, ⟨rfl, _, rfl, by decide⟩, ⟨rfl, _, rfl, by decide⟩, ⟨rfl, _, rfl, by decide⟩⟩

/-- StepFollowsTheTransitionTable and StepResultNamesTheOutcome: a step from each interpreter state, with each result. -/
theorem witness_transitions :
    (∃ t, step (launch 0xF30A) = .next t ∧ (launch 0xF30A).state = .running ∧ Runs (launch 0xF30A) (.ldVxK 3)) ∧
    (∃ t, step waiting = .next t ∧ waiting.state = .awaitingKey ∧ ∃ k, waiting.keyDown k = true) ∧
    (∃ t, step (launch 0x0000) = .next t ∧ stepResult (launch 0x0000) = .fail .unknownOpcode) ∧
    (∃ t, step ((launch 0x0000).setState .halted) = .next t ∧ ((launch 0x0000).setState .halted).state = .halted) :=
  ⟨⟨_, rfl, rfl, rfl, by decide, by decide⟩, ⟨_, rfl, rfl, 3, by decide⟩, ⟨_, rfl, by decide⟩, ⟨_, rfl, rfl⟩⟩

/-- The launch state of an instruction meets the invariant. -/
theorem witness_launch_inv : (launch 0x8124).Inv :=
  ⟨by decide, by decide, by decide, by decide, by decide, by decide⟩

/-- StepKeepsTheInvariant. -/
theorem witness_invariant : ∃ t, (launch 0x8124).Inv ∧ step (launch 0x8124) = .next t := ⟨_, witness_launch_inv, rfl⟩

/-- EveryRunKeepsTheInvariant. -/
theorem witness_run : ∃ u', (⟨launch 0x8124, true⟩ : Session).machine.Inv ∧
    Session.run ⟨launch 0x8124, true⟩ [.tick, .setKeyDown 0xF, .clearRedraw, .reset, .loadProgram [0x00, 0xE0]] = .next u' :=
  ⟨_, witness_launch_inv, rfl⟩

/-- ResetMeetsTheInvariant: legal parameters that are not the spec's. -/
theorem witness_parameters : Config.WellFormed { Config.spec with glyphBase := 0x1B0, shiftSource := .vy } := by decide

/-- OnlyNamedInstructionsWriteRegistersAndMemory: a register, I, the stack, a byte of memory changes. -/
theorem witness_registers_change :
    (∃ t, Memory.wf (launch 0x6A42).cfg (launch 0x6A42).mem ∧ step (launch 0x6A42) = .next t ∧
      t.getV 10 ≠ (launch 0x6A42).getV 10) ∧
    (∃ t, Memory.wf (launch 0xA20A).cfg (launch 0xA20A).mem ∧ step (launch 0xA20A) = .next t ∧ t.i ≠ (launch 0xA20A).i) ∧
    (∃ t, Memory.wf (launch 0x2ABC).cfg (launch 0x2ABC).mem ∧ step (launch 0x2ABC) = .next t ∧ t.sp ≠ (launch 0x2ABC).sp) ∧
    (∃ t, Memory.wf ((atI 0xF055 0xFFF).setV 0 9).cfg ((atI 0xF055 0xFFF).setV 0 9).mem ∧
      step ((atI 0xF055 0xFFF).setV 0 9) = .next t ∧ t.readByte 0xFFF ≠ ((atI 0xF055 0xFFF).setV 0 9).readByte 0xFFF) :=
  ⟨⟨_, by decide, rfl, by decide⟩, ⟨_, by decide, rfl, by decide⟩, ⟨_, by decide, rfl, by decide⟩,
    ⟨_, by decide, rfl, by decide⟩⟩

/-- TimersChangeOnlyByTheirInstructions and OnlyNamedInstructionsWriteDisplayAndLatches: DT, ST, the display, the redraw level, the latch change. -/
theorem witness_timers_change :
    (∃ t, step ((launch 0xF315).setV 3 7) = .next t ∧ t.dt ≠ ((launch 0xF315).setV 3 7).dt) ∧
    (∃ t, step ((launch 0xF318).setV 3 7) = .next t ∧ t.st ≠ ((launch 0xF318).setV 3 7).st) ∧
    (∃ t, step (launch 0x00E0) = .next t ∧ t.redraw ≠ (launch 0x00E0).redraw) ∧
    (∃ t, step ((launch 0x00E0).setDisplay (cells [(1, 1)])) = .next t ∧
      t.display ≠ ((launch 0x00E0).setDisplay (cells [(1, 1)])).display) ∧
    (∃ t, step (launch 0xF30A) = .next t ∧ t.waitReg ≠ (launch 0xF30A).waitReg) :=
  ⟨⟨_, rfl, by decide⟩, ⟨_, rfl, by decide⟩, ⟨_, rfl, by decide⟩, ⟨_, rfl, by decide⟩, ⟨_, rfl, by decide⟩⟩

/-- GlyphTableIsImmutable: the first and the last byte of the table, in a step that stores just past it. -/
theorem witness_glyph_table : ∃ t, Memory.wf (atI 0xF055 0x050).cfg (atI 0xF055 0x050).mem ∧
    step (atI 0xF055 0x050) = .next t ∧ InGlyphTable (atI 0xF055 0x050).cfg 0x000 ∧
    InGlyphTable (atI 0xF055 0x050).cfg 0x04F := ⟨_, by decide, rfl, by decide, by decide⟩

/-- DisplayIsSeenOnlyThroughVF. -/
theorem witness_display_seen : ∃ t, exec (.drw 0 1 1) (atI 0xD011 0x300) = .next t := ⟨_, rfl⟩

/-- UnusedStackEntriesAreNotObservable: two states that differ in an entry above the depth. -/
theorem witness_unused_entry : ∃ t', launch 0x2ABC ≠ (launch 0x2ABC).setStack ((launch 0x2ABC).stack.set 0 0x222) 0 ∧
    SameUsedStack (launch 0x2ABC) ((launch 0x2ABC).setStack ((launch 0x2ABC).stack.set 0 0x222) 0) ∧
    step (launch 0x2ABC) = .next t' :=
  ⟨_, by decide, ⟨rfl, fun k hk => absurd hk (Nat.not_lt_zero _)⟩, rfl⟩

/-- CallPushesTheReturnAddress and ReturnPopsTheStack: the depths at the ends of each clause. -/
theorem witness_depths :
    (depth 0x2ABC 0).sp.val < 16 ∧ (depth 0x2ABC 15).sp.val < 16 ∧ (depth 0x2ABC 16).sp.val = 16 ∧
    0 < (depth 0x00EE 1).sp.val ∧ 0 < (depth 0x00EE 16).sp.val ∧ (depth 0x00EE 0).sp.val = 0 := by decide

/-- CallStackIsLastInFirstOut: 16 addresses fit, 17 do not, and the first pop of an empty stack. -/
theorem witness_call_stack :
    (launch 0x0000).sp.val + (List.replicate 16 (0x222 : Word)).length ≤ 16 ∧
    16 < (launch 0x0000).sp.val + (List.replicate 17 (0x222 : Word)).length ∧ (launch 0x0000).sp.val < 1 := by decide

/-- LogicOperatesBitwise: each instruction, with both values of LOGIC_CLEARS_VF, and with x = F. -/
theorem witness_logic :
    (∀ x : Reg, (Instr.orReg x 2 = .orReg x 2 ∧ or = or)) ∧
    ((1 : Reg) ≠ VF ∨ (launch 0x8121).cfg.logicClearsVF = false) ∧
    ((VF : Reg) ≠ VF ∨ (launch 0x8F21).cfg.logicClearsVF = false) ∧
    ({ launch 0x8121 with cfg := { Config.spec with logicClearsVF := true } } : State).cfg.logicClearsVF = true :=
  ⟨fun _ => ⟨rfl, rfl⟩, .inl (by decide), .inr rfl, rfl⟩

/-- AddSetsTheCarry, SubtractionsSetNoBorrow, ShiftsSetTheBitShiftedOut: a destination that is not VF, and the value that a
shift works on. -/
theorem witness_flags : (14 : Reg) ≠ VF ∧
    ((launch 0x8E26).getV (if (launch 0x8E26).cfg.shiftSource = .vx then 14 else 2)).toNat = 0 := by decide

/-- GlyphAddressIsSet. -/
theorem witness_glyph_address : (launch 0xF129).cfg.WellFormed := by decide

/-- DecimalDigitsAreStored and RegisterBlockIsStored: just past the glyph table, and up to the last byte of memory. -/
theorem witness_store_allowed :
    (∀ s ∈ [atI 0xF133 0x050, atI 0xF133 0xFFD], Memory.wf s.cfg s.mem ∧ s.i.toNat + 3 ≤ memSize ∧
      ∀ k < 3, ¬ InGlyphTable s.cfg (s.i.toNat + k)) ∧
    (∀ s ∈ [atI 0xFF55 0x050, atI 0xFF55 0xFF0], Memory.wf s.cfg s.mem ∧ s.i.toNat + 16 ≤ memSize ∧
      ∀ k < 16, ¬ InGlyphTable s.cfg (s.i.toNat + k)) := by decide

/-- RegisterBlockIsLoaded: the last block that fits, and one from the glyph table. -/
theorem witness_load_allowed : (atI 0xFF65 0xFF0).i.toNat + (15 : Reg).val ≤ 0xFFF ∧
    (atI 0xFF65 0x000).i.toNat + (15 : Reg).val ≤ 0xFFF := by decide

/-- AccessChecksFailTheCycle, first clause: each of the four instructions, one byte too far, and I beyond memory. -/
theorem witness_out_of_bounds :
    ∀ p ∈ [((.drw 0 1 1 : Instr), atI 0xD011 0x1000), (.drw 0 1 2, atI 0xD012 0xFFF), (.ldBVx 1, atI 0xF133 0xFFE),
      (.ldMemVx 1, atI 0xF155 0xFFF), (.ldVxMem 2, atI 0xF265 0xFFE), (.ldVxMem 0, atI 0xF065 0xFFFF)],
    0 < accessedBytes p.1 ∧ 0xFFF < p.2.i.toNat + accessedBytes p.1 - 1 := by decide

/-- AccessChecksFailTheCycle, second clause: a store that begins in the table, and one that runs into a table at 0x100. -/
theorem witness_glyph_write :
    (WritesMemory (.ldBVx 1) ∧ (atI 0xF133 0x04E).i.toNat + accessedBytes (.ldBVx 1) - 1 ≤ 0xFFF ∧
      InGlyphTable (atI 0xF133 0x04E).cfg 0x04E) ∧
    (WritesMemory (.ldMemVx 1) ∧ ∃ s : State, s = { atI 0xF155 0x0FF with cfg := { Config.spec with glyphBase := 0x100 } } ∧
      s.i.toNat + accessedBytes (.ldMemVx 1) - 1 ≤ 0xFFF ∧ s.i.toNat ≤ 0x100 ∧ 0x100 < s.i.toNat + accessedBytes (.ldMemVx 1) ∧
      InGlyphTable s.cfg 0x100 ∧ ∀ a, s.i.toNat ≤ a → a < 0x100 → ¬ InGlyphTable s.cfg a) := by
  refine ⟨⟨⟨1, .inl rfl⟩, by decide, by decide⟩, ⟨1, .inr rfl⟩, _, rfl, by decide, by decide, by decide, by decide, ?_⟩
  intro a _ ha hg
  exact absurd hg.1 (Nat.not_le.2 ha)

/-- StoreThenLoadRestoresRegisters: V0 to VF stored at 0x300, loaded in a state that agrees on memory, I and the
parameters. -/
theorem witness_store_then_load : ∃ t, Memory.wf (atI 0xFF55 0x300).cfg (atI 0xFF55 0x300).mem ∧
    (atI 0xFF55 0x300).state ≠ .halted ∧ exec (.ldMemVx 15) (atI 0xFF55 0x300) = .next t ∧ t.state ≠ .halted :=
  ⟨_, by decide, by decide, rfl, by decide⟩

/-- DrawXorsTheSprite and DrawTwiceRestoresTheDisplay: a sprite of no rows with I beyond memory, a row at the last byte, and
15 rows up to it; drawn, in a state that agrees as the second draw asks. -/
theorem witness_draw :
    ((0 : RowCount).val = 0 ∨ (atI 0xD010 0xFFFF).i.toNat + (0 : RowCount).val - 1 ≤ 0xFFF) ∧
    ((1 : RowCount).val = 0 ∨ (atI 0xD011 0xFFF).i.toNat + (1 : RowCount).val - 1 ≤ 0xFFF) ∧
    ((15 : RowCount).val = 0 ∨ (atI 0xD01F 0xFF1).i.toNat + (15 : RowCount).val - 1 ≤ 0xFFF) ∧
    ∃ t, exec (.drw 0 1 1) (atI 0xD011 0xFFF) = .next t ∧ t.mem = (atI 0xD011 0xFFF).mem ∧ t.i = (atI 0xD011 0xFFF).i ∧
      t.cfg = (atI 0xD011 0xFFF).cfg ∧ t.getV 0 = (atI 0xD011 0xFFF).getV 0 ∧ t.getV 1 = (atI 0xD011 0xFFF).getV 1 :=
  ⟨.inl rfl, .inr (by decide), .inr (by decide), _, rfl, rfl, rfl, rfl, by decide, by decide⟩

/-- KeyTestsSkip and KeyIndexAboveFFailsTheCycle: the highest key index and the lowest value that is none. -/
theorem witness_key_index : (((launch 0xE19E).setV 1 0x0F).getV 1).toNat = (15 : Fin 16).val ∧
    0x0F < (((launch 0xE19E).setV 1 0x10).getV 1).toNat := by decide

/-- KeyEventsSetTheKey: both operations, the highest legal code and the lowest illegal one. -/
theorem witness_key_event : (HostOp.setKeyDown 0xF = .setKeyDown 0xF ∧ true = true) ∧
    (HostOp.setKeyUp 0x10 = .setKeyUp 0x10 ∧ false = false) ∧ (15 : Fin 16).val = 0xF ∧ 0xF < 0x10 := by decide

/-- LoadProgramCopiesTheImage: the longest image and one of one byte more. -/
theorem witness_load_program : Memory.wf State.reset.cfg State.reset.mem ∧
    (List.replicate 3584 (0x12 : Byte)).length ≤ 0xE00 ∧ 0xE00 < (List.replicate 3585 (0x12 : Byte)).length := by
  rw [List.length_replicate, List.length_replicate]
  decide

/-- LoadOutOfOrderHasNoMeaning. -/
theorem witness_load_out_of_order : ∃ u', (∀ op ∈ [HostOp.tick, .loadProgram [], .clearRedraw], op ≠ .reset) ∧
    (∃ op ∈ [HostOp.tick, .loadProgram [], .clearRedraw], op = .step ∨ ∃ earlier, op = .loadProgram earlier) ∧
    (Session.start Config.spec).run [.tick, .loadProgram [], .clearRedraw] = .next u' :=
  ⟨_, by decide, ⟨.loadProgram [], by simp, .inr ⟨[], rfl⟩⟩, rfl⟩

/-- The session in which the empty image was loaded after a reset: a launch state. -/
def launched : Session := ⟨loadProgram State.reset [], false⟩

theorem witness_launched : launched.Launched := ⟨Session.start Config.spec, [], by decide, rfl⟩

/-- EveryRunKeepsTheInvariant, its infinite runs, and RunsNeedNotEnd: the host reads the display of a launch state for
ever. -/
theorem witness_infinite_run : (launched).machine.Inv ∧ Session.InfiniteRun (fun _ => launched) (fun _ => .readDisplay) ∧
    ∀ n : Nat, AlwaysLegal ((fun _ => .readDisplay : Nat → HostOp) n) :=
  ⟨⟨by decide, by decide, by decide, by decide, by decide, by decide⟩, ⟨witness_launched, fun _ => rfl⟩, fun _ => trivial⟩

/-- BootLeavesTheLaunchState: the empty and the longest image, with the glyph table as high as it may lie. -/
theorem witness_boot : ([] : List Byte).length ≤ 0xE00 ∧ (List.replicate 3584 (0x12 : Byte)).length ≤ 0xE00 ∧
    (Session.start { Config.spec with glyphBase := 0x1B0 }).machine.cfg.WellFormed := by
  rw [List.length_replicate]
  decide

/-- EndInErrorLastsUntilReset: a machine that has failed, a finite run and an infinite one. -/
theorem witness_end_in_error : ∃ (s : State) (u' : Session), step (launch 0xFFFF) = .next s ∧ EndedInError s ∧
    (∀ op ∈ [HostOp.step, .tick], op ≠ .reset) ∧ (⟨s, false⟩ : Session).run [.step, .tick] = .next u' ∧
    Session.RunsForever (fun _ => ⟨s, false⟩) (fun _ => .step) ∧ (0 : Nat) ≤ 5 :=
  ⟨_, _, rfl, ⟨by decide, by decide⟩, by decide, rfl, fun _ => rfl, by decide⟩

end Sys2Proof.Tests
end

section
/-! The cases of one step with what each leaves unchanged, and the timers under a step (40_cycle.md R83). -/

namespace Sys2Proof.Machine

/-- Latching a record changes the error record only (10_state.md R37). -/
theorem Unchanged.setErr (s : State) (e : Option ErrorRecord) : Unchanged [.err] [] s (s.setErr e) := by
  constructor <;> simp

/-- A failed cycle changes the interpreter state and the error record only (40_cycle.md R79). -/
theorem Unchanged.failCycle (s : State) (op : Option Word) (e : Raised) :
    Unchanged [.state, .err] [] s (failCycle s op e) :=
  ((Unchanged.setErr s _).mono (by simp) (by simp)).trans ((Unchanged.setState _ _).mono (by simp) (by simp))

/-- A key wait changes the interpreter state and the latched register only (40_cycle.md R76, R77). -/
theorem Unchanged.awaitPoll (s : State) : Unchanged [.state] [s.waitReg] s (awaitPoll s) := by
  unfold Machine.awaitPoll
  split
  · exact ((Unchanged.setV s _ _).mono (by simp) (by simp)).trans ((Unchanged.setState _ _).mono (by simp) (by simp))
  · exact .refl _ _ s

/-- The four cases of a step: the fetched instruction runs, the fetch or the decode fails, the key wait polls, or the machine
is halted (40_cycle.md R70). -/
theorem step_cases {s t : State} (h : step s = .next t) :
    (∃ i, Runs s i ∧ exec i s.advance = .next t) ∨
    (s.state = .running ∧ ∃ op e, t = failCycle s op e) ∨
    (s.state = .awaitingKey ∧ t = awaitPoll s) ∨
    (s.state = .halted ∧ t = s) := by
  cases hs : s.state with
  | running =>
    have h : runCycle s = .next t := by simpa only [step, hs] using h
    rcases runCycle_cases s with ⟨-, hr⟩ | ⟨-, -, hr⟩ | ⟨i, hpc, hd, hr⟩ <;> rw [hr] at h
    · cases h; exact .inr (.inl ⟨rfl, _, _, rfl⟩)
    · cases h; exact .inr (.inl ⟨rfl, _, _, rfl⟩)
    · exact .inl ⟨i, ⟨hs, hpc, hd⟩, h⟩
  | awaitingKey => simp only [step, hs] at h; cases h; exact .inr (.inr (.inl ⟨rfl, rfl⟩))
  | halted => simp only [step, hs] at h; cases h; exact .inr (.inr (.inr ⟨rfl, rfl⟩))

/-- The frame of a step: an instruction ran and changed its own items and registers and PC, or only the interpreter state, the
error record and the latched register changed. -/
theorem step_frame {s t : State} (h : step s = .next t) :
    (∃ i, Runs s i ∧ Unchanged (.pc :: writtenItems i) (writtenRegs s.cfg i) s t) ∨
    Unchanged [.state, .err] [s.waitReg] s t := by
  rcases step_cases h with ⟨i, hi, hx⟩ | ⟨-, op, e, rfl⟩ | ⟨-, rfl⟩ | ⟨-, rfl⟩
  · rcases exec_cases i s.advance with ⟨t', ht', -, hu⟩ | ⟨e, hf, -⟩
    · obtain rfl : t' = t := by simpa [ht'] using hx
      exact .inl ⟨i, hi, ((Unchanged.advance s).mono (by simp) (by simp)).trans (hu.mono (by simp) (fun _ hr => hr))⟩
    · obtain rfl : failCycle s (some (encode i)) e = t := by simpa [hf] using hx
      exact .inr ((Unchanged.failCycle s _ e).mono (fun _ hi => hi) (by simp))
  · exact .inr ((Unchanged.failCycle s op e).mono (fun _ hi => hi) (by simp))
  · exact .inr ((Unchanged.awaitPoll s).mono (by simp) (fun _ hr => hr))
  · exact .inr (.refl _ _ _)

/-- Fx15 is the only instruction that writes DT (45_keys_timers.md R127). -/
theorem dt_mem_writtenItems {i : Instr} (h : Item.dt ∈ writtenItems i) : ∃ x, i = .ldDtVx x := by
  cases i <;> simp [writtenItems] at h ⊢

/-- Fx18 is the only instruction that writes ST (45_keys_timers.md R128). -/
theorem st_mem_writtenItems {i : Instr} (h : Item.st ∈ writtenItems i) : ∃ x, i = .ldStVx x := by
  cases i <;> simp [writtenItems] at h ⊢

/-- Settles O19: by the frame of a step, a timer that changed is an item of the instruction that ran. -/
theorem timersChangeOnlyByTheirInstructions : Obligations.TimersChangeOnlyByTheirInstructions := by
  intro s t h
  rcases step_frame h with ⟨i, hi, hu⟩ | hu
  · constructor
    · intro hdt
      have hmem : Item.dt ∈ writtenItems i := by_contra fun hn => hdt (hu.dt (by simp [hn]))
      obtain ⟨x, rfl⟩ := dt_mem_writtenItems hmem
      exact ⟨x, hi⟩
    · intro hst
      have hmem : Item.st ∈ writtenItems i := by_contra fun hn => hst (hu.st (by simp [hn]))
      obtain ⟨x, rfl⟩ := st_mem_writtenItems hmem
      exact ⟨x, hi⟩
  · exact ⟨fun hdt => absurd (hu.dt (by simp)) hdt, fun hst => absurd (hu.st (by simp)) hst⟩

end Sys2Proof.Machine
end

section
/-! Control flow that only moves PC: jumps (41_control_flow.md R87, R93) and the comparisons that skip (R89 to R92). -/

namespace Sys2Proof.Machine

/-- A jump to nnn plus a byte stays inside 16 bits: the sum is at most 0x10FE (41_control_flow.md R93). -/
theorem zextAddr_add_zextByte_toNat (nnn : Addr12) (b : Byte) :
    (zextAddr nnn + zextByte b).toNat = nnn.toNat + b.toNat := by
  rw [BitVec.toNat_add_of_lt (by rw [zextAddr_toNat, zextByte_toNat]; omega), zextAddr_toNat, zextByte_toNat]

/-- What an instruction does whose whole effect is a skip on the condition `c`. -/
theorem exists_next_of_exec_eq_skipIf {i : Instr} {s : State} {c : Prop} [Decidable c]
    (h : exec i s = .next (skipIf s (decide c))) :
    ∃ t, exec i s = .next t ∧ t.pc = (if c then s.pc + 2 else s.pc) ∧ Unchanged [.pc] [] s t :=
  ⟨_, h, by simp [skipIf_pc], Unchanged.skipIf s _⟩

/-- The same for a skip on the negation of `c`, the form of 4xnn and 9xy0. -/
theorem exists_next_of_exec_eq_skipIf_not {i : Instr} {s : State} {c : Prop} [Decidable c]
    (h : exec i s = .next (skipIf s (decide (¬c)))) :
    ∃ t, exec i s = .next t ∧ t.pc = (if c then s.pc else s.pc + 2) ∧ Unchanged [.pc] [] s t := by
  simpa only [ite_not] using exists_next_of_exec_eq_skipIf h

/-- Settles O24: both forms set PC alone, and the sum with V0 does not wrap. -/
theorem jumpsSetThePC : Obligations.JumpsSetThePC := by
  intro nnn s
  constructor
  · exact ⟨s.setPC (zextAddr nnn), rfl, zextAddr_toNat nnn, Unchanged.setPC s _⟩
  · exact ⟨s.setPC (zextAddr nnn + zextByte (s.getV 0)), rfl, zextAddr_add_zextByte_toNat nnn _, Unchanged.setPC s _⟩

/-- Settles O28: each form is a skip on equality or on its negation. -/
theorem comparisonsSkip : Obligations.ComparisonsSkip := by
  intro x y nn s
  refine ⟨?seImm, ?sneImm, ?seReg, ?sneReg⟩
  case seImm => exact exists_next_of_exec_eq_skipIf rfl
  case sneImm => exact exists_next_of_exec_eq_skipIf_not rfl
  case seReg => exact exists_next_of_exec_eq_skipIf rfl
  case sneReg => exact exists_next_of_exec_eq_skipIf_not rfl

end Sys2Proof.Machine
end

section
/-! Assignments: the instructions whose whole effect is to set one register (42_alu.md R96, R98). -/

namespace Sys2Proof.Machine

/-- What an instruction does whose whole effect is to set Vx: no other register changes, so VF is written only as Vx. -/
theorem exists_next_of_exec_eq_setV {i : Instr} {s : State} {x : Reg} {b : Byte}
    (h : exec i s = .next (s.setV x b)) :
    ∃ t, exec i s = .next t ∧ t.getV x = b ∧ Unchanged [] [x] s t :=
  ⟨_, h, State.getV_setV_self s x b, Unchanged.setV s x b⟩

/-- Settles O29: each form sets Vx alone, to the immediate or to Vy. -/
theorem assignmentsSetTheRegister : Obligations.AssignmentsSetTheRegister := by
  intro x y nn s
  refine ⟨?ldImm, ?ldReg⟩
  case ldImm => exact exists_next_of_exec_eq_setV rfl
  case ldReg => exact exists_next_of_exec_eq_setV rfl

end Sys2Proof.Machine
end

section
/-! The address register I (43_index_memory.md R110). -/

namespace Sys2Proof.Machine

/-- Settles O36: Annn sets I alone, to nnn zero-extended. -/
theorem loadAddressSetsI : Obligations.LoadAddressSetsI := by
  intro nnn s
  have hexec : exec (.ldI nnn) s = .next (s.setI (zextAddr nnn)) := rfl
  exact ⟨_, hexec, zextAddr_toNat nnn, Unchanged.setI s _⟩

end Sys2Proof.Machine
end

section
/-! The display instructions (44_display.md R117). -/

namespace Sys2Proof.Machine

/-- Settles O44: 00E0 replaces the display by the clear one, whose every cell is false, and then raises the redraw level. -/
theorem clearDisplayClearsEveryCell : Obligations.ClearDisplayClearsEveryCell := by
  intro s
  have hexec : exec .cls s = .next ((s.setDisplay Display.clear).setRedraw true) := rfl
  refine ⟨_, hexec, ?cells, rfl, ?frame⟩
  case cells => exact Display.cell_clear
  case frame =>
    have hdisplay : Unchanged [.display, .redraw] [] s (s.setDisplay Display.clear) :=
      (Unchanged.setDisplay s _).mono (by simp) (by simp)
    have hredraw : Unchanged [.display, .redraw] [] (s.setDisplay Display.clear)
        ((s.setDisplay Display.clear).setRedraw true) :=
      (Unchanged.setRedraw _ true).mono (by simp) (by simp)
    exact hdisplay.trans hredraw

end Sys2Proof.Machine
end

section
/-! The key tests (45_keys_timers.md R122 to R124) and the timer transfers (R126 to R128). -/

namespace Sys2Proof.Machine

/-- Ex9E with a Vx that names key `k` skips when that key is down. -/
theorem exec_skp_of_key {x : Reg} {s : State} {k : Fin 16} (hk : (s.getV x).toNat = k.val) :
    exec (.skp x) s = .next (skipIf s (s.keyDown k)) := by
  change execSkp x s = _
  rw [execSkp, keyIndex_ok k hk]
  rfl

/-- ExA1 with a Vx that names key `k` skips when that key is up. -/
theorem exec_sknp_of_key {x : Reg} {s : State} {k : Fin 16} (hk : (s.getV x).toNat = k.val) :
    exec (.sknp x) s = .next (skipIf s (!s.keyDown k)) := by
  change execSknp x s = _
  rw [execSknp, keyIndex_ok k hk]
  rfl

/-- Settles O47: with a Vx that names a key, each test is a skip on that key or on its negation. -/
theorem keyTestsSkip : Obligations.KeyTestsSkip := by
  intro x s k hk
  refine ⟨?skp, ?sknp⟩
  case skp => exact exists_next_of_exec_eq_skipIf (by simpa using exec_skp_of_key hk)
  case sknp => exact exists_next_of_exec_eq_skipIf_not (by simpa using exec_sknp_of_key hk)

/-- Settles O50: Fx07 sets Vx alone, Fx15 sets DT alone and Fx18 sets ST alone. -/
theorem timersAreTransferred : Obligations.TimersAreTransferred := by
  intro x s
  refine ⟨?ldVxDt, ?ldDtVx, ?ldStVx⟩
  case ldVxDt => exact exists_next_of_exec_eq_setV rfl
  case ldDtVx =>
    have hexec : exec (.ldDtVx x) s = .next (s.setDT (s.getV x)) := rfl
    exact ⟨_, hexec, State.setDT_dt s _, Unchanged.setDT s _⟩
  case ldStVx =>
    have hexec : exec (.ldStVx x) s = .next (s.setST (s.getV x)) := rfl
    exact ⟨_, hexec, State.setST_st s _, Unchanged.setST s _⟩

end Sys2Proof.Machine
end

section
/-! The decoder, the encoder and the opcode map agree (30_encoding.md R58 to R66). -/

namespace Sys2Proof

/-! ## Decoding an encoded instruction -/

/-- The word of an instruction decodes to that instruction: each format gives its fields back (30_encoding.md R60, R64). -/
theorem decode_encode (i : Instr) : decode (encode i) = .ok i := by
  cases i with
  | cls | ret => rfl
  | jp nnn | call nnn | ldI nnn | jpV0 nnn => simp [encode, decode, fields_encodeNnn]
  | seImm x nn | sneImm x nn | ldImm x nn | addImm x nn | rnd x nn => simp [encode, decode, fields_encodeXnn]
  | seReg x y | sneReg x y => simp [encode, decode, fields_encodeXyn]
  | ldReg x y | orReg x y | andReg x y | xorReg x y | addReg x y | subReg x y | shr x y | subnReg x y | shl x y =>
    simp [encode, decode, decodeFamily8, fields_encodeXyn]
  | drw x y n => simp [encode, decode, nOf, fields_encodeXyn]
  | skp x | sknp x => simp [encode, decode, decodeFamilyE, fields_encodeX]
  | ldVxDt x | ldVxK x | ldDtVx x | ldStVx x | addIVx x | ldFVx x | ldBVx x | ldMemVx x | ldVxMem x =>
    simp [encode, decode, decodeFamilyF, fields_encodeX]

/-- Settles O1: the stored bytes are those of the word, and the word decodes to its instruction. -/
theorem decodeOfEncodedBytesGivesTheInstruction : Obligations.DecodeOfEncodedBytesGivesTheInstruction := by
  intro i rest
  rw [decodeBytes_bytesOfWord, decode_encode]
  rfl

/-! ## Encoding a decoded word -/

theorem encode_of_decodeFamily0 {op : Word} {i : Instr} (h : decodeFamily0 op = .ok i) : encode i = op := by
  unfold decodeFamily0 at h
  split at h
  · next hop => cases h; exact hop.symm
  · split at h
    · next hop => cases h; exact hop.symm
    · cases h

theorem encode_of_decodeFamily8 {op : Word} {i : Instr} (hf : familyOf op = 0x8) (h : decodeFamily8 op = .ok i) :
    encode i = op := by
  unfold decodeFamily8 at h
  split at h <;> cases h
  all_goals exact encodeXyn_fields hf ‹_›

theorem encode_of_decodeFamilyE {op : Word} {i : Instr} (hf : familyOf op = 0xE) (h : decodeFamilyE op = .ok i) :
    encode i = op := by
  unfold decodeFamilyE at h
  split at h <;> cases h
  all_goals exact encodeX_fields hf ‹_›

theorem encode_of_decodeFamilyF {op : Word} {i : Instr} (hf : familyOf op = 0xF) (h : decodeFamilyF op = .ok i) :
    encode i = op := by
  unfold decodeFamilyF at h
  split at h <;> cases h
  all_goals exact encodeX_fields hf ‹_›

/-- Settles O2: by the branches of the decoder, each of which fixes every bit that its format does not read. -/
theorem encodeOfDecodedWordGivesTheWord : Obligations.EncodeOfDecodedWordGivesTheWord := by
  intro op i h
  unfold decode at h
  split at h
  case h_1 => exact encode_of_decodeFamily0 h
  case h_2 hf | h_3 hf | h_11 hf | h_12 hf => cases h; exact encodeNnn_fields hf
  case h_4 hf | h_5 hf | h_7 hf | h_8 hf | h_13 hf => cases h; exact encodeXnn_fields hf
  case h_6 hf | h_10 hf =>
    split at h
    · next hn => cases h; exact encodeXyn_fields hf hn
    · cases h
  case h_9 hf => exact encode_of_decodeFamily8 hf h
  case h_14 hf => cases h; exact encodeXyn_fields hf (by rw [nOf_val, lowNibble_eq])
  case h_15 hf => exact encode_of_decodeFamilyE hf h
  case h_16 hf => exact encode_of_decodeFamilyF hf h
  case h_17 => cases h

/-- A word that does not decode is UnknownOpcode, with the word itself (30_encoding.md R65). -/
theorem decode_error {op : Word} {e : DecodeError} (h : decode op = .error e) : e = .unknownOpcode op := by
  unfold decode decodeFamily0 decodeFamily8 decodeFamilyE decodeFamilyF at h
  repeat' split at h
  all_goals cases h
  all_goals rfl

/-! ## The opcode map -/

/-- The word of every instruction matches the row of its mnemonic (30_encoding.md R63). -/
theorem exists_row_matches_encode (i : Instr) :
    ∃ r ∈ opcodeTable, r.mnemonic = i.mnemonic ∧ r.Matches (encode i) := by
  open Laws.MatchesRow in
  cases i
  exacts [cls, ret, jp _, call _, seImm _ _, sneImm _ _, seReg _ _, ldImm _ _, addImm _ _, ldReg _ _, orReg _ _,
    andReg _ _, xorReg _ _, addReg _ _, subReg _ _, shr _ _, subnReg _ _, shl _ _, sneReg _ _, ldI _, jpV0 _, rnd _ _,
    drw _ _ _, skp _, sknp _, ldVxDt _, ldVxK _, ldDtVx _, ldStVx _, addIVx _, ldFVx _, ldBVx _, ldMemVx _, ldVxMem _]

/-- The family of a word that matches a row of mask 0xF000. -/
theorem familyOf_of_mask_F000 {op bits : Word} (h : op &&& 0xF000 = bits) : familyOf op = bits.toNat / 0x1000 := by
  rw [← h, toNat_mask_F000]
  omega

/-- The family and the low nibble of a word that matches a row of mask 0xF00F. -/
theorem fields_of_mask_F00F {op bits : Word} (h : op &&& 0xF00F = bits) :
    familyOf op = bits.toNat / 0x1000 ∧ bitField op 3 0 = bits.toNat % 0x1000 := by
  rw [← h, toNat_mask_F00F, lowNibble_eq]
  omega

/-- The family and the low byte of a word that matches a row of mask 0xF0FF. -/
theorem fields_of_mask_F0FF {op bits : Word} (h : op &&& 0xF0FF = bits) :
    familyOf op = bits.toNat / 0x1000 ∧ bitField op 7 0 = bits.toNat % 0x1000 := by
  rw [← h, toNat_mask_F0FF, lowByte_eq]
  omega

/-! A word that matches a row is the word that the row's format builds from its fields. -/

theorem encodeNnn_of_matches {op bits : Word} {f : Nat} (h : op &&& 0xF000 = bits) (hf : bits.toNat / 0x1000 = f) :
    encodeNnn f (nnnOf op) = op :=
  encodeNnn_fields ((familyOf_of_mask_F000 h).trans hf)

theorem encodeXnn_of_matches {op bits : Word} {f : Nat} (h : op &&& 0xF000 = bits) (hf : bits.toNat / 0x1000 = f) :
    encodeXnn f (xOf op) (nnOf op) = op :=
  encodeXnn_fields ((familyOf_of_mask_F000 h).trans hf)

theorem encodeXyn_of_matches {op bits : Word} {f : Nat} (h : op &&& 0xF000 = bits) (hf : bits.toNat / 0x1000 = f) :
    encodeXyn f (xOf op) (yOf op) (nOf op).val = op :=
  encodeXyn_fields ((familyOf_of_mask_F000 h).trans hf) (by rw [nOf_val, lowNibble_eq])

theorem encodeXy_of_matches {op bits : Word} {f n : Nat} (h : op &&& 0xF00F = bits) (hf : bits.toNat / 0x1000 = f)
    (hn : bits.toNat % 0x1000 = n) : encodeXyn f (xOf op) (yOf op) n = op :=
  encodeXyn_fields ((fields_of_mask_F00F h).1.trans hf) ((fields_of_mask_F00F h).2.trans hn)

theorem encodeX_of_matches {op bits : Word} {f low : Nat} (h : op &&& 0xF0FF = bits) (hf : bits.toNat / 0x1000 = f)
    (hlow : bits.toNat % 0x1000 = low) : encodeX f (xOf op) low = op :=
  encodeX_fields ((fields_of_mask_F0FF h).1.trans hf) ((fields_of_mask_F0FF h).2.trans hlow)

/-- `op` is the word of an instruction with this mnemonic. -/
def EncodesMnemonic (op : Word) (mnemonic : String) : Prop := ∃ i, encode i = op ∧ i.mnemonic = mnemonic

/-- A word that matches a row of the opcode map is the word of an instruction of that row, row by row. -/
theorem encodesMnemonic_of_matches {op : Word} {r : OpcodeRow} (hr : r ∈ opcodeTable) (h : r.Matches op) :
    EncodesMnemonic op r.mnemonic := by
  revert h
  revert r
  simp only [opcodeTable, opcodeRows1, opcodeRows2, opcodeRows3, opcodeRows4, List.cons_append, List.nil_append,
    List.forall_mem_cons, OpcodeRow.Matches, List.not_mem_nil, false_implies, implies_true, and_true]
  exact ⟨fun h => ⟨.cls, h.symm.trans (mask_FFFF op), rfl⟩,
    fun h => ⟨.ret, h.symm.trans (mask_FFFF op), rfl⟩,
    fun h => ⟨.jp (nnnOf op), encodeNnn_of_matches h rfl, rfl⟩,
    fun h => ⟨.call (nnnOf op), encodeNnn_of_matches h rfl, rfl⟩,
    fun h => ⟨.seImm (xOf op) (nnOf op), encodeXnn_of_matches h rfl, rfl⟩,
    fun h => ⟨.sneImm (xOf op) (nnOf op), encodeXnn_of_matches h rfl, rfl⟩,
    fun h => ⟨.seReg (xOf op) (yOf op), encodeXy_of_matches h rfl rfl, rfl⟩,
    fun h => ⟨.ldImm (xOf op) (nnOf op), encodeXnn_of_matches h rfl, rfl⟩,
    fun h => ⟨.addImm (xOf op) (nnOf op), encodeXnn_of_matches h rfl, rfl⟩,
    fun h => ⟨.ldReg (xOf op) (yOf op), encodeXy_of_matches h rfl rfl, rfl⟩,
    fun h => ⟨.orReg (xOf op) (yOf op), encodeXy_of_matches h rfl rfl, rfl⟩,
    fun h => ⟨.andReg (xOf op) (yOf op), encodeXy_of_matches h rfl rfl, rfl⟩,
    fun h => ⟨.xorReg (xOf op) (yOf op), encodeXy_of_matches h rfl rfl, rfl⟩,
    fun h => ⟨.addReg (xOf op) (yOf op), encodeXy_of_matches h rfl rfl, rfl⟩,
    fun h => ⟨.subReg (xOf op) (yOf op), encodeXy_of_matches h rfl rfl, rfl⟩,
    fun h => ⟨.shr (xOf op) (yOf op), encodeXy_of_matches h rfl rfl, rfl⟩,
    fun h => ⟨.subnReg (xOf op) (yOf op), encodeXy_of_matches h rfl rfl, rfl⟩,
    fun h => ⟨.shl (xOf op) (yOf op), encodeXy_of_matches h rfl rfl, rfl⟩,
    fun h => ⟨.sneReg (xOf op) (yOf op), encodeXy_of_matches h rfl rfl, rfl⟩,
    fun h => ⟨.ldI (nnnOf op), encodeNnn_of_matches h rfl, rfl⟩,
    fun h => ⟨.jpV0 (nnnOf op), encodeNnn_of_matches h rfl, rfl⟩,
    fun h => ⟨.rnd (xOf op) (nnOf op), encodeXnn_of_matches h rfl, rfl⟩,
    fun h => ⟨.drw (xOf op) (yOf op) (nOf op), encodeXyn_of_matches h rfl, rfl⟩,
    fun h => ⟨.skp (xOf op), encodeX_of_matches h rfl rfl, rfl⟩,
    fun h => ⟨.sknp (xOf op), encodeX_of_matches h rfl rfl, rfl⟩,
    fun h => ⟨.ldVxDt (xOf op), encodeX_of_matches h rfl rfl, rfl⟩,
    fun h => ⟨.ldVxK (xOf op), encodeX_of_matches h rfl rfl, rfl⟩,
    fun h => ⟨.ldDtVx (xOf op), encodeX_of_matches h rfl rfl, rfl⟩,
    fun h => ⟨.ldStVx (xOf op), encodeX_of_matches h rfl rfl, rfl⟩,
    fun h => ⟨.addIVx (xOf op), encodeX_of_matches h rfl rfl, rfl⟩,
    fun h => ⟨.ldFVx (xOf op), encodeX_of_matches h rfl rfl, rfl⟩,
    fun h => ⟨.ldBVx (xOf op), encodeX_of_matches h rfl rfl, rfl⟩,
    fun h => ⟨.ldMemVx (xOf op), encodeX_of_matches h rfl rfl, rfl⟩,
    fun h => ⟨.ldVxMem (xOf op), encodeX_of_matches h rfl rfl, rfl⟩⟩

/-- The mnemonics of the opcode map are distinct, so a row is known by its mnemonic. -/
theorem opcodeTable_mnemonic_injOn {r r' : OpcodeRow} (hr : r ∈ opcodeTable) (hr' : r' ∈ opcodeTable)
    (h : r.mnemonic = r'.mnemonic) : r = r' := by
  have hnodup : (opcodeTable.map OpcodeRow.mnemonic).Nodup := by decide
  exact List.inj_on_of_nodup_map hnodup hr hr' h

/-- A word that matches a row decodes to an instruction of that row. -/
theorem exists_decode_of_matches {op : Word} {r : OpcodeRow} (hr : r ∈ opcodeTable) (h : r.Matches op) :
    ∃ i, decode op = .ok i ∧ i.mnemonic = r.mnemonic := by
  obtain ⟨i, rfl, hi⟩ := encodesMnemonic_of_matches hr h
  exact ⟨i, decode_encode i, hi⟩

/-- A word that decodes matches the row of its instruction. -/
theorem exists_row_of_decode {op : Word} {i : Instr} (h : decode op = .ok i) :
    ∃ r ∈ opcodeTable, r.Matches op ∧ r.mnemonic = i.mnemonic := by
  obtain ⟨r, hr, hm, hmatch⟩ := exists_row_matches_encode i
  rw [encodeOfDecodedWordGivesTheWord op i h] at hmatch
  exact ⟨r, hr, hmatch, hm⟩

/-- A word that matches no row is UnknownOpcode (30_encoding.md R65). -/
theorem decode_of_not_matches {op : Word} (h : ∀ r ∈ opcodeTable, ¬ r.Matches op) :
    decode op = .error (.unknownOpcode op) := by
  cases hd : decode op with
  | ok i =>
    obtain ⟨r, hr, hmatch, -⟩ := exists_row_of_decode hd
    exact absurd hmatch (h r hr)
  | error e => rw [decode_error hd]

/-- Settles O3: a word matches a row exactly when it is the word of an instruction of that row. -/
theorem decodeAgreesWithTheOpcodeMap : Obligations.DecodeAgreesWithTheOpcodeMap := by
  refine ⟨rfl, fun op =>
    ⟨fun i => exists_row_of_decode, fun r => exists_decode_of_matches, decode_of_not_matches, ?unique⟩⟩
  case unique =>
    intro r hr r' hr' h h'
    obtain ⟨i, hi, hm⟩ := exists_decode_of_matches hr h
    obtain ⟨i', hi', hm'⟩ := exists_decode_of_matches hr' h'
    obtain rfl : i = i' := Except.ok.inj (hi.symm.trans hi')
    exact opcodeTable_mnemonic_injOn hr hr' (hm.symm.trans hm')

/-- Settles O4: the decoder runs on each of the words. -/
theorem specWordsDecode : Obligations.SpecWordsDecode := by
  unfold Obligations.SpecWordsDecode
  decide

end Sys2Proof
end

section
/-! One cycle: what a step from each interpreter state answers, and which result it returns (40_cycle.md R70 to R81). -/

namespace Sys2Proof.Machine

/-! ## A step from each interpreter state -/

theorem step_of_running {s : State} (hs : s.state = .running) : step s = runCycle s := by simp only [step, hs]

theorem step_of_awaitingKey {s : State} (hs : s.state = .awaitingKey) : step s = .next (awaitPoll s) := by
  simp only [step, hs]

theorem step_of_halted {s : State} (hs : s.state = .halted) : step s = .next s := by simp only [step, hs]

/-- A cycle that fetches instruction `i` runs it with PC two further (40_cycle.md R73, R75). -/
theorem step_of_runs {s : State} {i : Instr} (h : Runs s i) : step s = exec i s.advance := by
  obtain ⟨hs, hpc, hd⟩ := h
  simp only [step_of_running hs, runCycle, fetch_ok hpc, hd]

/-- A cycle whose fetch fails (40_cycle.md R72). -/
theorem step_of_fetch_error {s : State} (hs : s.state = .running) (h : 0xFFE < s.pc.toNat) :
    step s = .next (failCycle s none (.outOfBounds (max s.pc.toNat 0x1000))) := by
  simp only [step_of_running hs, runCycle, fetch_error h]

/-- A cycle whose decode fails (40_cycle.md R74). -/
theorem step_of_decode_error {s : State} {e : DecodeError} (hs : s.state = .running) (hpc : s.pc.toNat ≤ 0xFFE)
    (h : decode (fetchedWord s) = .error e) :
    step s = .next (failCycle s (some (fetchedWord s)) (.plain .unknownOpcode)) := by
  simp only [step_of_running hs, runCycle, fetch_ok hpc, h]

/-- Settles O5. -/
theorem stepRunsTheFetchedInstruction : Obligations.StepRunsTheFetchedInstruction :=
  fun _ _ h => step_of_runs h

/-- Settles O6: in both clauses the lowest address beyond memory is the larger of PC and 0x1000. -/
theorem fetchBeyondMemoryFailsTheCycle : Obligations.FetchBeyondMemoryFailsTheCycle := by
  intro s hs
  constructor
  · intro hpc
    rw [step_of_fetch_error hs (by omega), Nat.max_eq_left hpc]
    rfl
  · intro hpc
    rw [step_of_fetch_error hs (by omega), hpc]
    rfl

/-- Settles O7: a word that matches no row does not decode. -/
theorem unmatchedWordFailsTheCycle : Obligations.UnmatchedWordFailsTheCycle :=
  fun _ hs hpc h => step_of_decode_error hs hpc (decode_of_not_matches h)

/-- Every instruction answers a next state, also when its cycle fails. -/
theorem exists_exec_eq_next (i : Instr) (s : State) : ∃ t, exec i s = .next t := by
  rcases exec_cases i s with ⟨t, h, -⟩ | ⟨e, h, -⟩
  · exact ⟨t, h⟩
  · exact ⟨_, h⟩

/-- Settles O8: by the cases of a RUNNING cycle, and at once in the other two interpreter states. -/
theorem stepAlwaysAnswersANextState : Obligations.StepAlwaysAnswersANextState := by
  intro s
  cases hs : s.state with
  | running =>
    rw [step_of_running hs]
    rcases runCycle_cases s with ⟨-, h⟩ | ⟨-, -, h⟩ | ⟨i, -, -, h⟩
    · exact ⟨_, h⟩
    · exact ⟨_, h⟩
    · rw [h]
      exact exists_exec_eq_next i _
  | awaitingKey => exact ⟨_, step_of_awaitingKey hs⟩
  | halted => exact ⟨_, step_of_halted hs⟩

/-! ## A RUNNING cycle: it fails with an error of its own, or it completes -/

/-- A state fetches at most one instruction. -/
theorem Runs.unique {s : State} {i j : Instr} (hi : Runs s i) (hj : Runs s j) : i = j :=
  Except.ok.inj (hi.2.2.symm.trans hj.2.2)

/-- The word fetched is the encoding of the instruction that runs (30_encoding.md R66). -/
theorem Runs.encode_eq {s : State} {i : Instr} (h : Runs s i) : encode i = fetchedWord s :=
  encodeOfDecodedWordGivesTheWord _ _ h.2.2

/-- The errors that a RUNNING cycle from `s` can raise, each with the word fetched, if the fetch completed: by the fetch, by
the decode, or by the rule of the instruction that runs (40_cycle.md R79). -/
inductive CycleRaises (s : State) : Option Word → Raised → Prop where
  | fetch : 0xFFE < s.pc.toNat → CycleRaises s none (.outOfBounds (max s.pc.toNat 0x1000))
  | undecodable {e : DecodeError} : s.pc.toNat ≤ 0xFFE → decode (fetchedWord s) = .error e →
      CycleRaises s (some (fetchedWord s)) (.plain .unknownOpcode)
  | rule {i : Instr} {e : Raised} : Runs s i → RaisedBy s.advance i e → CycleRaises s (some (fetchedWord s)) e

/-- The cycle from `s` runs `i` and completes in `t`: `i` changes only its own items and registers, and PC. -/
structure Completes (s : State) (i : Instr) (t : State) : Prop where
  runs : Runs s i
  exec : exec i s.advance = .next t
  unchanged : Unchanged (writtenItems i) (writtenRegs s.cfg i) s.advance t

/-- What a RUNNING cycle can do. -/
theorem running_step_cases {s t : State} (hs : s.state = .running) (h : step s = .next t) :
    (∃ op e, CycleRaises s op e ∧ t = failCycle s op e) ∨ ∃ i, Completes s i t := by
  rw [step_of_running hs] at h
  rcases runCycle_cases s with ⟨hpc, hr⟩ | ⟨hpc, ⟨e, hd⟩, hr⟩ | ⟨i, hpc, hd, hr⟩ <;> rw [hr] at h
  · cases h
    exact .inl ⟨_, _, .fetch hpc, rfl⟩
  · cases h
    exact .inl ⟨_, _, .undecodable hpc hd, rfl⟩
  · have hruns : Runs s i := ⟨hs, hpc, hd⟩
    rcases exec_cases i s.advance with ⟨t', ht', -, hu⟩ | ⟨e, hf, he⟩
    · obtain rfl : t' = t := by simpa [ht'] using h
      exact .inr ⟨i, hruns, ht', hu⟩
    · obtain rfl : failCycle s (some (encode i)) e = t := by simpa [hf] using h
      exact .inl ⟨_, e, hruns.encode_eq ▸ .rule hruns he, rfl⟩

/-- Fx0A is the only instruction that writes the interpreter state by itself (45_keys_timers.md R125). -/
theorem state_mem_writtenItems {i : Instr} (h : Item.state ∈ writtenItems i) : ∃ x, i = .ldVxK x := by
  cases i <;> simp [writtenItems] at h ⊢

/-- No instruction writes the error record by itself. -/
theorem err_not_mem_writtenItems (i : Instr) : Item.err ∉ writtenItems i := by cases i <;> simp [writtenItems]

theorem Completes.err_eq {s t : State} {i : Instr} (h : Completes s i t) : t.err = s.err :=
  h.unchanged.err (err_not_mem_writtenItems i)

/-- A cycle that completes goes on RUNNING, or has run Fx0A and waits for a key (40_cycle.md R80). -/
theorem Completes.state_cases {s t : State} {i : Instr} (h : Completes s i t) :
    (∃ x, i = .ldVxK x) ∧ t.state = .awaitingKey ∨ (∀ x, i ≠ .ldVxK x) ∧ t.state = .running := by
  by_cases hi : ∃ x, i = .ldVxK x
  · obtain ⟨x, rfl⟩ := hi
    have hx := h.exec
    cases hx
    exact .inl ⟨⟨x, rfl⟩, rfl⟩
  · have hstate : t.state = s.state := h.unchanged.state fun hmem => hi (state_mem_writtenItems hmem)
    exact .inr ⟨fun x hx => hi ⟨x, hx⟩, hstate.trans h.runs.1⟩

theorem Completes.state_ne_halted {s t : State} {i : Instr} (h : Completes s i t) : t.state ≠ .halted := by
  rcases h.state_cases with ⟨-, ht⟩ | ⟨-, ht⟩ <;> simp [ht]

/-- A RUNNING cycle that ends HALTED has failed. -/
theorem exists_cycleRaises_of_halted {s t : State} (hs : s.state = .running) (h : step s = .next t)
    (ht : t.state = .halted) : ∃ op e, CycleRaises s op e ∧ t = failCycle s op e := by
  rcases running_step_cases hs h with hf | ⟨i, hi⟩
  · exact hf
  · exact absurd ht hi.state_ne_halted

/-- The opcode of a record is the word fetched, if the fetch completed (60_exceptions.md R130). -/
theorem CycleRaises.opcode_eq {s : State} {op : Option Word} {e : Raised} (h : CycleRaises s op e) :
    op = if s.pc.toNat ≤ 0xFFE then some (fetchedWord s) else none := by
  cases h with
  | fetch hpc => rw [if_neg (by omega)]
  | undecodable hpc _ => rw [if_pos hpc]
  | rule hi _ => rw [if_pos hi.2.1]

/-- A kind and the information it carries (60_exceptions.md R129, R130), for the kinds that a cycle raises: an address for
kinds 4 and 6, a value for kind 7. -/
def Raised.InfoFitsKind (e : Raised) : Prop :=
  e.kind ≠ .romTooLarge ∧
  (e.addr ≠ none ↔ e.kind = .outOfBoundsMemoryAccess ∨ e.kind = .glyphTableWrite) ∧
  (e.value ≠ none ↔ e.kind = .keyIndexOutOfRange)

theorem RaisedBy.infoFitsKind {s : State} {i : Instr} {e : Raised} (h : RaisedBy s i e) : e.InfoFitsKind := by
  cases h <;> simp [Raised.InfoFitsKind, Raised.plain, Raised.keyIndex, Raised.outOfBounds, Raised.glyphWrite]

theorem CycleRaises.infoFitsKind {s : State} {op : Option Word} {e : Raised} (h : CycleRaises s op e) :
    e.InfoFitsKind := by
  cases h with
  | fetch _ => simp [Raised.InfoFitsKind, Raised.outOfBounds]
  | undecodable _ _ => simp [Raised.InfoFitsKind, Raised.plain]
  | rule _ he => exact he.infoFitsKind

/-- Fx0A checks nothing (45_keys_timers.md R125). -/
theorem not_raisedBy_ldVxK {s : State} {x : Reg} {e : Raised} : ¬ RaisedBy s (.ldVxK x) e := by
  intro h
  cases h with
  | bounds _ hpos _ => exact absurd hpos (lt_irrefl 0)
  | glyph _ g hw _ =>
    obtain ⟨y, hy | hy⟩ := hw
    · cases hy
    · cases hy

/-- A cycle that runs Fx0A does not fail. -/
theorem CycleRaises.not_runs_ldVxK {s : State} {op : Option Word} {e : Raised} (h : CycleRaises s op e) (x : Reg) :
    ¬ Runs s (.ldVxK x) := by
  intro hx
  cases h with
  | fetch hpc => exact absurd hx.2.1 (by omega)
  | undecodable _ hd => exact absurd (hd.symm.trans hx.2.2) (by simp)
  | rule hi he =>
    obtain rfl := hi.unique hx
    exact not_raisedBy_ldVxK he

/-! ## The key wait -/

/-- A key wait with a key down takes the lowest (40_cycle.md R76). -/
theorem awaitPoll_of_lowestKeyDown {s : State} {k : Fin 16} (h : lowestKeyDown s = some k) :
    awaitPoll s = (s.setV s.waitReg (BitVec.ofNat 8 k.val)).setState .running := by
  simp only [awaitPoll, h]

/-- A key wait with no key down changes nothing (40_cycle.md R77). -/
theorem awaitPoll_of_no_key {s : State} (h : ∀ k, s.keyDown k = false) : awaitPoll s = s := by
  simp only [awaitPoll, lowestKeyDown_eq_none.2 h]

/-- Either no key is down, or there is a lowest one. -/
theorem no_key_or_lowestKeyDown (s : State) : (∀ k, s.keyDown k = false) ∨ ∃ k, lowestKeyDown s = some k := by
  cases h : lowestKeyDown s with
  | none => exact .inl (lowestKeyDown_eq_none.1 h)
  | some k => exact .inr ⟨k, rfl⟩

/-! ## The result of a step (40_cycle.md R81) -/

theorem stepResult_of_halted {s : State} (hs : s.state = .halted) : stepResult s = .halted := by
  simp only [stepResult, hs]

theorem stepResult_of_lowestKeyDown {s : State} {k : Fin 16} (hs : s.state = .awaitingKey)
    (h : lowestKeyDown s = some k) : stepResult s = .ok := by
  simp [stepResult, hs, h]

theorem stepResult_of_no_key {s : State} (hs : s.state = .awaitingKey) (h : ∀ k, s.keyDown k = false) :
    stepResult s = .waiting := by
  simp [stepResult, hs, lowestKeyDown_eq_none.2 h]

theorem stepResult_of_failCycle {s : State} {op : Option Word} {e : Raised} (hs : s.state = .running)
    (h : step s = .next (failCycle s op e)) : stepResult s = .fail e.kind := by
  simp [stepResult, hs, h, Raised.record]

theorem stepResult_of_not_halted {s t : State} (hs : s.state = .running) (h : step s = .next t)
    (ht : t.state ≠ .halted) : stepResult s = .ok := by
  simp [stepResult, hs, h, ht]

/-! ## The obligations about the cycle -/

/-- Settles O10: the lowest key down is the one that `lowestKeyDown` finds. -/
theorem keyWaitTakesTheLowestKeyDown : Obligations.KeyWaitTakesTheLowestKeyDown := by
  intro s hs
  constructor
  · intro k hk hlow
    have hlowest : lowestKeyDown s = some k := lowestKeyDown_eq_some.2 ⟨hk, hlow⟩
    have hpoll := awaitPoll_of_lowestKeyDown hlowest
    refine ⟨stepResult_of_lowestKeyDown hs hlowest, _, step_of_awaitingKey hs, ?code, ?running, Unchanged.awaitPoll s⟩
    case code =>
      rw [hpoll, State.getV_setState, State.getV_setV_self, BitVec.toNat_ofNat]
      omega
    case running => rw [hpoll, State.setState_state]
  · intro hnone
    rw [step_of_awaitingKey hs, awaitPoll_of_no_key hnone]
    exact ⟨rfl, stepResult_of_no_key hs hnone⟩

/-- Settles O11: the cycle that ends HALTED is a failed cycle, and its record is that of the error raised. -/
theorem failedCycleRestoresItsStart : Obligations.FailedCycleRestoresItsStart := by
  intro s t hs h ht
  obtain ⟨op, e, hraised, rfl⟩ := exists_cycleRaises_of_halted hs h ht
  refine ⟨e.kind, e.addr, e.value, stepResult_of_failCycle hs h, ?_⟩
  rw [failCycle_eq, ← hraised.opcode_eq]

/-- Settles O12: by the errors that a cycle can raise. -/
theorem errorRecordHoldsWhatItsKindUses : Obligations.ErrorRecordHoldsWhatItsKindUses := by
  intro s t hs h ht
  obtain ⟨op, e, hraised, rfl⟩ := exists_cycleRaises_of_halted hs h ht
  obtain ⟨hkind, haddr, hvalue⟩ := hraised.infoFitsKind
  refine ⟨e.record s.pc op, rfl, hkind, rfl, ?none, ?some, haddr, hvalue⟩
  case none =>
    change op = none ↔ _
    rw [hraised.opcode_eq]
    simp
  case some =>
    intro w hw
    change op = some w at hw
    rw [hraised.opcode_eq] at hw
    split at hw
    · exact (Option.some.inj hw).symm
    · cases hw

/-- Settles O13: from RUNNING by whether the cycle fails or completes, from AWAITING_KEY by whether a key is down. -/
theorem stepFollowsTheTransitionTable : Obligations.StepFollowsTheTransitionTable := by
  intro s t h
  refine ⟨?running, ?awaitingKey, ?halted⟩
  case running =>
    intro hs
    rcases running_step_cases hs h with ⟨op, e, hraised, rfl⟩ | ⟨i, hi⟩
    · have hres := stepResult_of_failCycle hs h
      simp [hres, hraised.not_runs_ldVxK]
    · have hres := stepResult_of_not_halted hs h hi.state_ne_halted
      have hruns : ∀ j, Runs s j ↔ j = i := fun j => ⟨fun hj => hj.unique hi.runs, fun hj => hj ▸ hi.runs⟩
      rcases hi.state_cases with ⟨⟨x, rfl⟩, ht⟩ | ⟨hne, ht⟩
      · simp [ht, hres, hruns]
      · simp [ht, hres, hruns, hne, Ne.symm (hne _)]
  case awaitingKey =>
    intro hs
    obtain rfl : awaitPoll s = t := by simpa [step_of_awaitingKey hs] using h
    rcases no_key_or_lowestKeyDown s with hnone | ⟨k, hk⟩
    · rw [awaitPoll_of_no_key hnone, if_neg (by simp [hnone]), hs]
    · rw [awaitPoll_of_lowestKeyDown hk, if_pos ⟨k, (lowestKeyDown_eq_some.1 hk).1⟩, State.setState_state]
  case halted =>
    intro hs
    obtain rfl : s = t := by simpa [step_of_halted hs] using h
    exact hs

/-- Settles O14: each interpreter state, and each outcome of a cycle from it, has a result of its own. -/
theorem stepResultNamesTheOutcome : Obligations.StepResultNamesTheOutcome := by
  intro s t h
  cases hs : s.state with
  | running =>
    rcases running_step_cases hs h with ⟨op, e, -, rfl⟩ | ⟨i, hi⟩
    · simp [stepResult_of_failCycle hs h, EndedInError, Raised.record]
    · simp [stepResult_of_not_halted hs h hi.state_ne_halted, hi.state_ne_halted]
  | awaitingKey =>
    rcases no_key_or_lowestKeyDown s with hnone | ⟨k, hk⟩
    · simp [stepResult_of_no_key hs hnone, hnone]
    · have hdown : s.keyDown k = true := (lowestKeyDown_eq_some.1 hk).1
      simp only [stepResult_of_lowestKeyDown hs hk]
      simpa using ⟨k, hdown⟩
  | halted => simp [stepResult_of_halted hs]

end Sys2Proof.Machine
end

section
/-! The call stack: 2nnn and 00EE (41_control_flow.md R86, R88), pushes and pops in sequence (10_state.md R29). -/

namespace Sys2Proof.Machine

/-! ## One call and one return -/

theorem exec_call_of_lt {nnn : Addr12} {s : State} (h : s.sp.val < 16) :
    exec (.call nnn) s =
      .next ((s.setStack (s.stack.set s.sp.val s.pc h) ⟨s.sp.val + 1, Nat.succ_lt_succ h⟩).setPC (zextAddr nnn)) := by
  simp only [exec, execCall, push_ok s.pc h, settle_ok]

theorem exec_call_overflow {nnn : Addr12} {s : State} (h : s.sp.val = 16) :
    exec (.call nnn) s = .next (failedExec s (.call nnn) .stackOverflow none none) := by
  simp only [exec, execCall, push_overflow s.pc h, settle_error]
  rfl

theorem exec_ret_of_depth {s : State} (k : Fin 16) (h : s.sp.val = k.val + 1) :
    exec .ret s = .next ((s.setStack s.stack ⟨k.val, by omega⟩).setPC s.stack[k]) := by
  simp only [exec, execRet, pop_ok k h, settle_ok]

theorem exec_ret_underflow {s : State} (h : s.sp.val = 0) :
    exec .ret s = .next (failedExec s .ret .stackUnderflow none none) := by
  simp only [exec, execRet, pop_underflow h, settle_error]
  rfl

theorem Unchanged.setStack_setPC (s : State) (e : Vector Word 16) (d : Fin 17) (a : Word) :
    Unchanged [.pc, .stack] [] s ((s.setStack e d).setPC a) :=
  ((Unchanged.setStack s e d).mono (by simp) (by simp)).trans ((Unchanged.setPC _ a).mono (by simp) (by simp))

/-- An entry of the stack after a push. -/
theorem stack_set_getElem (s : State) {d : Nat} (hd : d < 16) (a : Word) (k : Fin 16) :
    (s.stack.set d a hd)[k] = if k.val = d then a else s.stack[k] := by
  simp only [Fin.getElem_fin, Vector.getElem_set, eq_comm]

/-- A depth above 0 has a top entry. -/
theorem exists_top_of_depth {s : State} (h : 0 < s.sp.val) : ∃ k : Fin 16, s.sp.val = k.val + 1 :=
  ⟨⟨s.sp.val - 1, by omega⟩, by simp only; omega⟩

/-- Settles O25: below depth 16 the push completes and PC is set; at depth 16 it fails. -/
theorem callPushesTheReturnAddress : Obligations.CallPushesTheReturnAddress := by
  intro nnn s
  constructor
  · intro h
    exact ⟨_, exec_call_of_lt h, zextAddr_toNat nnn, rfl, stack_set_getElem s h s.pc, Unchanged.setStack_setPC s _ _ _⟩
  · exact exec_call_overflow

/-- Settles O26: above depth 0 the top entry goes to PC and all entries stay in place; at depth 0 the pop fails. -/
theorem returnPopsTheStack : Obligations.ReturnPopsTheStack := by
  intro s
  constructor
  · intro h
    obtain ⟨top, htop⟩ := exists_top_of_depth h
    refine ⟨_, exec_ret_of_depth top htop, htop.symm, ?pc, fun _ _ => rfl, Unchanged.setStack_setPC s _ _ _⟩
    case pc =>
      intro k hk
      obtain rfl : k = top := Fin.ext (by omega)
      rfl
  · exact exec_ret_underflow

/-! ## Pushes and pops in sequence -/

theorem pushAll_cons_ok {s t : State} {a : Word} {as : List Word} (h : push s a = .ok t) :
    pushAll s (a :: as) = pushAll t as := by
  simp only [pushAll, h]

theorem pushAll_overflow {s : State} {as : List Word} (h : 16 < s.sp.val + as.length) :
    pushAll s as = .error (.plain .stackOverflow) := by
  induction as generalizing s with
  | nil =>
    have := s.sp.isLt
    simp only [List.length_nil] at h
    omega
  | cons a as ih =>
    simp only [List.length_cons] at h
    rcases Nat.lt_or_ge s.sp.val 16 with hlt | hge
    · rw [pushAll_cons_ok (push_ok a hlt)]
      exact ih (by simp only [State.setStack_sp]; omega)
    · simp only [pushAll, push_overflow a (show s.sp.val = 16 by omega)]

theorem popAll_underflow {s : State} {n : Nat} (h : s.sp.val < n) : popAll s n = .error (.plain .stackUnderflow) := by
  induction n generalizing s with
  | zero => omega
  | succ n ih =>
    rcases Nat.eq_zero_or_pos s.sp.val with h0 | hpos
    · simp only [popAll, pop_underflow h0]
    · obtain ⟨k, hk⟩ := exists_top_of_depth hpos
      simp only [popAll, pop_ok k hk, ih (show (s.setStack s.stack ⟨k.val, by omega⟩).sp.val < n by
        simp only [State.setStack_sp]; omega)]

/-- One more pop after `n` pops. -/
theorem popAll_succ {s t u : State} {n : Nat} {as : List Word} {a : Word} (h : popAll s n = .ok (as, t))
    (ht : pop t = .ok (a, u)) : popAll s (n + 1) = .ok (as ++ [a], u) := by
  induction n generalizing s as with
  | zero =>
    cases h
    simp [popAll, ht]
  | succ n ih =>
    rw [popAll] at h
    split at h
    · cases h
    · next b s' hb =>
      split at h
      · cases h
      · next bs t' hbs =>
        cases h
        rw [popAll]
        simp only [hb, ih hbs, List.cons_append]

/-- States that agree but for stack entries not in use have the same depth. -/
theorem SameUsedStack.sp_eq {s t : State} (h : SameUsedStack s t) : t.sp = s.sp := by rw [h.1]

theorem SameUsedStack.unchanged {s t : State} (h : SameUsedStack s t) : Unchanged [.stack] [] s t := by
  rw [h.1]
  exact Unchanged.setStack s t.stack s.sp

/-- A push, anything that restores the entries in use, and a pop: the address pushed is popped, and the entries in use are
those before the push. -/
theorem pop_of_push {s t u : State} {a : Word} (h : s.sp.val < 16) (hpush : push s a = .ok t)
    (hu : SameUsedStack t u) : ∃ w, pop u = .ok (a, w) ∧ SameUsedStack s w := by
  rw [push_ok a h] at hpush
  cases hpush
  have hdepth : u.sp.val = s.sp.val + 1 := congrArg Fin.val hu.sp_eq
  obtain ⟨heq, hentries⟩ := hu
  have hentry : ∀ k : Fin 16, k.val ≤ s.sp.val → u.stack[k] = if k.val = s.sp.val then a else s.stack[k] := fun k hk =>
    (hentries k (Nat.lt_succ_of_le hk)).trans (stack_set_getElem s h a k)
  have htop : u.stack[(⟨s.sp.val, h⟩ : Fin 16)] = a := by rw [hentry _ le_rfl, if_pos rfl]
  refine ⟨u.setStack u.stack ⟨s.sp.val, by omega⟩, ?pop, ?eq, ?entries⟩
  case pop => rw [pop_ok ⟨s.sp.val, h⟩ hdepth, htop]
  case eq =>
    have hset := congrArg (fun u' : State => u'.setStack u.stack s.sp) heq
    exact hset
  case entries =>
    intro k hk
    rw [State.setStack_stack, hentry k hk.le, if_neg (by omega)]

/-- Addresses pushed within depth 16 pop in reverse order and restore the entries in use. -/
theorem popAll_pushAll {s : State} {as : List Word} (h : s.sp.val + as.length ≤ 16) :
    ∃ t u, pushAll s as = .ok t ∧ popAll t as.length = .ok (as.reverse, u) ∧ SameUsedStack s u := by
  induction as generalizing s with
  | nil => exact ⟨s, s, rfl, rfl, rfl, fun _ _ => rfl⟩
  | cons a as ih =>
    simp only [List.length_cons] at h
    have hlt : s.sp.val < 16 := by omega
    have hpush := push_ok a hlt
    obtain ⟨t, u, ht, hu, hsame⟩ :=
      ih (s := s.setStack (s.stack.set s.sp.val a hlt) ⟨s.sp.val + 1, Nat.succ_lt_succ hlt⟩)
        (by simp only [State.setStack_sp]; omega)
    obtain ⟨w, hw, hsame'⟩ := pop_of_push hlt hpush hsame
    exact ⟨t, w, (pushAll_cons_ok hpush).trans ht, by rw [List.reverse_cons]; exact popAll_succ hu hw, hsame'⟩

/-- Settles O27. -/
theorem callStackIsLastInFirstOut : Obligations.CallStackIsLastInFirstOut := by
  intro s as
  refine ⟨fun h => ?_, pushAll_overflow, fun n => popAll_underflow⟩
  obtain ⟨t, u, ht, hu, hsame⟩ := popAll_pushAll h
  exact ⟨t, u, ht, hu, hsame.sp_eq, hsame.2, hsame.unchanged⟩

end Sys2Proof.Machine
end

section
/-! Arithmetic, logic and the flags (42_alu.md R94 to R107). -/

namespace Sys2Proof.Machine

/-- A flag read back from a byte (10_state.md R23). -/
theorem flagByte_toNat (f : Bool) : (flagByte f).toNat = if f then 1 else 0 := by cases f <;> rfl

/-- What an instruction does that writes a result and a flag: the result in Vx, unless x is F, and the flag in VF. -/
theorem exists_next_of_exec_eq_writeWithFlag {i : Instr} {s : State} {x : Reg} {b : Byte} {f : Bool} {result flag : Nat}
    (h : exec i s = .next (writeWithFlag s x b f)) (hb : b.toNat = result) (hf : (flagByte f).toNat = flag) :
    ∃ t, exec i s = .next t ∧ (x ≠ VF → (t.getV x).toNat = result) ∧ (t.getV VF).toNat = flag ∧
      Unchanged [] [x, VF] s t := by
  refine ⟨_, h, fun hx => ?_, ?_, Unchanged.writeWithFlag s x b f⟩
  · rw [getV_writeWithFlag, if_neg hx, if_pos rfl, hb]
  · rw [getV_writeWithFlag, if_pos rfl, hf]

/-- Settles O30: 7xnn sets Vx alone, to the sum modulo 256. -/
theorem addImmediateWraps : Obligations.AddImmediateWraps := by
  intro x nn s
  have hexec : exec (.addImm x nn) s = .next (s.setV x (s.getV x + nn)) := rfl
  obtain ⟨t, ht, hx, hu⟩ := exists_next_of_exec_eq_setV hexec
  exact ⟨t, ht, by rw [hx, BitVec.toNat_add], hu⟩

/-- Settles O32: the sum modulo 256, and VF the carry. -/
theorem addSetsTheCarry : Obligations.AddSetsTheCarry := by
  intro x y s
  exact exists_next_of_exec_eq_writeWithFlag rfl (BitVec.toNat_add _ _) (by simp [flagByte_toNat, carryFlag])

/-- A difference modulo 256. -/
theorem sub_toNat_eq (a b : Byte) : (a - b).toNat = (256 + a.toNat - b.toNat) % 256 := by
  rw [BitVec.toNat_sub]
  omega

/-- Settles O33: each difference modulo 256, and VF set when there is no borrow. -/
theorem subtractionsSetNoBorrow : Obligations.SubtractionsSetNoBorrow := by
  intro x y s
  refine ⟨?sub, ?subn⟩
  case sub =>
    exact exists_next_of_exec_eq_writeWithFlag rfl (sub_toNat_eq _ _) (by simp [flagByte_toNat, noBorrowFlag])
  case subn =>
    exact exists_next_of_exec_eq_writeWithFlag rfl (sub_toNat_eq _ _) (by simp [flagByte_toNat, noBorrowFlag])

/-- The register that SHIFT_SOURCE names (42_alu.md R104). -/
theorem shiftOperand_eq (s : State) (x y : Reg) :
    shiftOperand s x y = s.getV (if s.cfg.shiftSource = .vx then x else y) := by
  unfold shiftOperand
  split <;> simp [*]

theorem shiftedOutRight_toNat (b : Byte) : (flagByte (shiftedOutRight b)).toNat = b.toNat % 2 := by
  rw [flagByte_toNat, shiftedOutRight, BitVec.getLsbD, Nat.testBit_zero]
  split <;> simp_all

theorem shiftedOutLeft_toNat (b : Byte) : (flagByte (shiftedOutLeft b)).toNat = b.toNat / 128 := by
  have := b.isLt
  rw [flagByte_toNat, shiftedOutLeft, BitVec.getLsbD, Nat.testBit_eq_decide_div_mod_eq]
  split <;> simp_all <;> omega

/-- Settles O34: half and double of the operand modulo 256, and VF the bit shifted out. -/
theorem shiftsSetTheBitShiftedOut : Obligations.ShiftsSetTheBitShiftedOut := by
  intro x y s v hv
  rw [← shiftOperand_eq] at hv
  subst hv
  refine ⟨?shr, ?shl⟩
  case shr =>
    have hhalf (b : Byte) : (b >>> 1).toNat = b.toNat / 2 := by
      rw [BitVec.toNat_ushiftRight, Nat.shiftRight_eq_div_pow, pow_one]
    exact exists_next_of_exec_eq_writeWithFlag rfl (hhalf _) (shiftedOutRight_toNat _)
  case shl =>
    have hdouble (b : Byte) : (b <<< 1).toNat = b.toNat * 2 % 256 := by
      rw [BitVec.toNat_shiftLeft, Nat.shiftLeft_eq, pow_one]
    exact exists_next_of_exec_eq_writeWithFlag rfl (hdouble _) (shiftedOutLeft_toNat _)

/-- A logic instruction writes Vx, and clears VF after it exactly when LOGIC_CLEARS_VF is true. -/
theorem getV_writeLogic (s : State) (x r : Reg) (b : Byte) :
    (writeLogic s x b).getV r =
      if s.cfg.logicClearsVF = true ∧ r = VF then 0 else if r = x then b else s.getV r := by
  unfold writeLogic
  split <;> simp [*, State.getV_setV]

/-- What an instruction does that writes a logic result `b`, each bit of which is `f` of the operands' bits. -/
theorem exists_next_of_exec_eq_writeLogic {i : Instr} {s : State} {x y : Reg} {b : Byte} {f : Bool → Bool → Bool}
    (h : exec i s = .next (writeLogic s x b))
    (hb : ∀ j, b.getLsbD j = f ((s.getV x).getLsbD j) ((s.getV y).getLsbD j)) :
    ∃ t, exec i s = .next t ∧
      (x ≠ VF ∨ s.cfg.logicClearsVF = false →
        ∀ j < 8, (t.getV x).getLsbD j = f ((s.getV x).getLsbD j) ((s.getV y).getLsbD j)) ∧
      (s.cfg.logicClearsVF = true → t.getV VF = 0) ∧
      Unchanged [] (if s.cfg.logicClearsVF then [x, VF] else [x]) s t := by
  refine ⟨_, h, fun hx j _ => ?result, fun hclear => ?flag, Unchanged.writeLogic s x b⟩
  case result =>
    have hkeep : ¬ (s.cfg.logicClearsVF = true ∧ x = VF) := by
      rintro ⟨hclear, rfl⟩
      simp [hclear] at hx
    rw [getV_writeLogic, if_neg hkeep, if_pos rfl, hb j]
  case flag => rw [getV_writeLogic, if_pos ⟨hclear, rfl⟩]

/-- Settles O31: the three instructions write the bitwise or, and, exclusive or. -/
theorem logicOperatesBitwise : Obligations.LogicOperatesBitwise := by
  rintro x y s f i (⟨rfl, rfl⟩ | ⟨rfl, rfl⟩ | ⟨rfl, rfl⟩)
  · exact exists_next_of_exec_eq_writeLogic rfl fun _ => BitVec.getLsbD_or
  · exact exists_next_of_exec_eq_writeLogic rfl fun _ => BitVec.getLsbD_and
  · exact exists_next_of_exec_eq_writeLogic rfl fun _ => BitVec.getLsbD_xor

/-- Settles O35: Cxnn sets Vx to the masked byte and counts the draw. -/
theorem randomByteIsMasked : Obligations.RandomByteIsMasked := by
  intro x nn s
  have hexec : exec (.rnd x nn) s = .next (s.setV x (Config.randomByte s.draws &&& nn)).countDraw := rfl
  refine ⟨_, hexec, fun j _ => ?_, rfl, ?_⟩
  · rw [State.getV_countDraw, State.getV_setV_self, BitVec.getLsbD_and]
  · exact ((Unchanged.setV s x _).mono (by simp) (by simp)).trans ((Unchanged.countDraw _).mono (by simp) (by simp))

end Sys2Proof.Machine
end

section
/-! The address register (43_index_memory.md R111, R112), a key index out of range (45_keys_timers.md R122) and the start of a
key wait (45_keys_timers.md R125). -/

namespace Sys2Proof.Machine

/-- Settles O37: Fx1E sets I alone, to the sum modulo 2^16. -/
theorem addToAddressWraps : Obligations.AddToAddressWraps := by
  intro x s
  have hexec : exec (.addIVx x) s = .next (s.setI (s.i + zextByte (s.getV x))) := rfl
  refine ⟨_, hexec, ?_, Unchanged.setI s _⟩
  rw [State.setI_i, BitVec.toNat_add, zextByte_toNat]

/-- Settles O38: Fx29 sets I alone, to the address of the glyph. -/
theorem glyphAddressIsSet : Obligations.GlyphAddressIsSet := by
  intro x s hcfg
  have hexec : exec (.ldFVx x) s = .next (s.setI (glyphAddress s.cfg (s.getV x))) := rfl
  exact ⟨_, hexec, glyphAddress_toNat hcfg _, Unchanged.setI s _⟩

theorem exec_skp_keyIndex {x : Reg} {s : State} (h : 0x0F < (s.getV x).toNat) :
    exec (.skp x) s = .next (failedExec s (.skp x) .keyIndexOutOfRange none (some (s.getV x).toNat)) := by
  simp only [exec, execSkp, keyIndex_error h, settle_error]
  rfl

theorem exec_sknp_keyIndex {x : Reg} {s : State} (h : 0x0F < (s.getV x).toNat) :
    exec (.sknp x) s = .next (failedExec s (.sknp x) .keyIndexOutOfRange none (some (s.getV x).toNat)) := by
  simp only [exec, execSknp, keyIndex_error h, settle_error]
  rfl

/-- Settles O48. -/
theorem keyIndexAboveFFailsTheCycle : Obligations.KeyIndexAboveFFailsTheCycle :=
  fun _ _ h => ⟨exec_skp_keyIndex h, exec_sknp_keyIndex h⟩

/-- Settles O49: Fx0A sets the latch and then the interpreter state. -/
theorem keyWaitBegins : Obligations.KeyWaitBegins := by
  intro x s
  have hexec : exec (.ldVxK x) s = .next ((s.setWaitReg x).setState .awaitingKey) := rfl
  exact ⟨_, hexec, rfl, rfl, ((Unchanged.setWaitReg s x).mono (by simp) (by simp)).trans
    ((Unchanged.setState _ _).mono (by simp) (by simp))⟩

end Sys2Proof.Machine
end

section
/-! The invariant of the machine: after reset, under every step and under every sequence of host operations (`State.Inv`;
70_reset_and_hazards.md R155). -/

namespace Sys2Proof.Machine

/-! ## The parts of the invariant -/

/-- The invariant speaks of six items only. -/
theorem State.Inv.congr {s t : State} (h : s.Inv) (hcfg : t.cfg = s.cfg) (hmem : t.mem = s.mem) (hpc : t.pc = s.pc)
    (hstack : t.stack = s.stack) (hstate : t.state = s.state) (herr : t.err = s.err) : t.Inv where
  cfg := hcfg ▸ h.cfg
  mem := by rw [hcfg, hmem]; exact h.mem
  glyphs := by simpa only [State.readByte, hcfg, hmem] using h.glyphs
  pc := hpc ▸ h.pc
  stack := by rw [hstack]; exact h.stack
  halted := by rw [hstate, herr]; exact h.halted

/-- The interpreter state and the error record may change together. -/
theorem State.Inv.setErr_setState {s : State} (h : s.Inv) {e : Option ErrorRecord} {m : InterpState}
    (hme : m = .halted ↔ e ≠ none) : ((s.setErr e).setState m).Inv where
  cfg := h.cfg
  mem := h.mem
  glyphs := h.glyphs
  pc := h.pc
  stack := h.stack
  halted := hme

theorem State.Inv.failCycle {s : State} (h : s.Inv) (op : Option Word) (e : Raised) : (failCycle s op e).Inv :=
  h.setErr_setState (by simp)

/-- A machine that is not HALTED has no error latched. -/
theorem State.Inv.err_eq_none {s : State} (h : s.Inv) (hs : s.state ≠ .halted) : s.err = none :=
  by_contra fun he => hs (h.halted.2 he)

theorem State.Inv.awaitPoll {s : State} (h : s.Inv) (hs : s.state = .awaitingKey) : (awaitPoll s).Inv := by
  rcases no_key_or_lowestKeyDown s with hnone | ⟨k, hk⟩
  · rw [awaitPoll_of_no_key hnone]
    exact h
  · rw [awaitPoll_of_lowestKeyDown hk]
    have herr : s.err = none := h.err_eq_none (by simp [hs])
    exact ⟨h.cfg, h.mem, h.glyphs, h.pc, h.stack, by simp [herr]⟩

/-! ## PC and the return addresses under an instruction -/

/-- The instructions that write the call stack (10_state.md R29). -/
theorem stack_mem_writtenItems {i : Instr} (h : Item.stack ∈ writtenItems i) : i = .ret ∨ ∃ nnn, i = .call nnn := by
  cases i <;> simp [writtenItems] at h ⊢

/-- What a rule may set PC to: PC as it is, or two further, a return address, an address field, or one plus a byte
(41_control_flow.md R85 to R93). -/
inductive PCTarget (s : State) : Word → Prop where
  | stay : PCTarget s s.pc
  | skip : PCTarget s (s.pc + 2)
  | pop (k : Fin 16) : PCTarget s s.stack[k]
  | jump (nnn : Addr12) : PCTarget s (zextAddr nnn)
  | offset (nnn : Addr12) (b : Byte) : PCTarget s (zextAddr nnn + zextByte b)

theorem pcTarget_skipIf (s : State) (b : Bool) : PCTarget s (skipIf s b).pc := by
  cases b
  · exact .stay
  · exact .skip

/-- A register's value names a key, or is above 0x0F (45_keys_timers.md R122). -/
theorem key_or_gt (b : Byte) : (∃ k : Fin 16, b.toNat = k.val) ∨ 0x0F < b.toNat := by
  rcases Nat.lt_or_ge b.toNat 16 with h | h
  · exact .inl ⟨⟨_, h⟩, rfl⟩
  · exact .inr h

/-- An instruction that goes on RUNNING has set PC to one of its targets. -/
theorem pcTarget_of_exec {i : Instr} {s t : State} (h : exec i s = .next t) (ht : t.state ≠ .halted)
    (hu : Unchanged (writtenItems i) (writtenRegs s.cfg i) s t) : PCTarget s t.pc := by
  by_cases hpc : Item.pc ∈ writtenItems i
  case neg =>
    rw [hu.pc hpc]
    exact .stay
  cases i <;> simp [writtenItems] at hpc
  case ret =>
    rcases Nat.eq_zero_or_pos s.sp.val with h0 | hpos
    · rw [exec_ret_underflow h0] at h
      cases h
      exact absurd rfl ht
    · obtain ⟨k, hk⟩ := exists_top_of_depth hpos
      rw [exec_ret_of_depth k hk] at h
      cases h
      exact .pop k
  case jp nnn => cases h; exact .jump nnn
  case call nnn =>
    rcases Nat.lt_or_ge s.sp.val 16 with hlt | hge
    · rw [exec_call_of_lt hlt] at h
      cases h
      exact .jump nnn
    · rw [exec_call_overflow (by omega)] at h
      cases h
      exact absurd rfl ht
  case jpV0 nnn => cases h; exact .offset nnn _
  case seImm | sneImm | seReg | sneReg => cases h; exact pcTarget_skipIf s _
  case skp x =>
    rcases key_or_gt (s.getV x) with ⟨k, hk⟩ | hgt
    · rw [exec_skp_of_key hk] at h
      cases h
      exact pcTarget_skipIf s _
    · rw [exec_skp_keyIndex hgt] at h
      cases h
      exact absurd rfl ht
  case sknp x =>
    rcases key_or_gt (s.getV x) with ⟨k, hk⟩ | hgt
    · rw [exec_sknp_of_key hk] at h
      cases h
      exact pcTarget_skipIf s _
    · rw [exec_sknp_keyIndex hgt] at h
      cases h
      exact absurd rfl ht

/-- The advance of PC does not wrap below 0xFFFE (40_cycle.md R73). -/
theorem add_two_toNat {a : Word} (h : a.toNat < 0xFFFE) : (a + 2).toNat = a.toNat + 2 :=
  BitVec.toNat_add_of_lt (by change a.toNat + 2 < 0x10000; omega)

/-- No target lies above 0x10FE (10_state.md R26, 41_control_flow.md R93). -/
theorem PCTarget.toNat_le {s : State} {a : Word} (h : PCTarget s a) (hpc : s.pc.toNat ≤ 0x1000)
    (hstack : ∀ k : Fin 16, s.stack[k].toNat ≤ 0x1000) : a.toNat ≤ 0x10FE := by
  cases h with
  | stay => omega
  | skip =>
    rw [add_two_toNat (by omega)]
    omega
  | pop k =>
    have := hstack k
    omega
  | jump nnn =>
    rw [zextAddr_toNat]
    omega
  | offset nnn b =>
    rw [zextAddr_add_zextByte_toNat]
    omega

/-- The return addresses after an instruction are those before it, or one of them is PC (41_control_flow.md R88). -/
theorem stack_cases_of_exec {i : Instr} {s t : State} (h : exec i s = .next t)
    (hu : Unchanged (writtenItems i) (writtenRegs s.cfg i) s t) (k : Fin 16) :
    t.stack[k] = s.stack[k] ∨ t.stack[k] = s.pc := by
  by_cases hi : Item.stack ∈ writtenItems i
  case neg => rw [hu.stack hi]; exact .inl rfl
  rcases stack_mem_writtenItems hi with rfl | ⟨nnn, rfl⟩
  · rcases Nat.eq_zero_or_pos s.sp.val with h0 | hpos
    · rw [exec_ret_underflow h0] at h
      cases h
      exact .inl rfl
    · obtain ⟨top, htop⟩ := exists_top_of_depth hpos
      rw [exec_ret_of_depth top htop] at h
      cases h
      exact .inl rfl
  · rcases Nat.lt_or_ge s.sp.val 16 with hlt | hge
    · rw [exec_call_of_lt hlt] at h
      cases h
      rw [State.setPC_stack, State.setStack_stack, stack_set_getElem]
      split
      · exact .inr rfl
      · exact .inl rfl
    · rw [exec_call_overflow (by omega)] at h
      cases h
      exact .inl rfl

/-! ## The invariant under a step -/

/-- The advance of a fetch that completed stays at or below the end of memory (20_memory.md R48). -/
theorem advance_pc_toNat_le {s : State} (h : s.pc.toNat ≤ 0xFFE) : s.advance.pc.toNat ≤ 0x1000 := by
  rw [State.advance_pc, add_two_toNat (by omega)]
  omega

theorem State.Inv.of_completes {s t : State} {i : Instr} (h : s.Inv) (hc : Completes s i t) : t.Inv := by
  obtain ⟨hmem, hcfg, hglyphs, -⟩ := exec_memory (s := s.advance) h.mem hc.exec
  have hpc := advance_pc_toNat_le hc.runs.2.1
  refine ⟨hcfg ▸ h.cfg, hmem, ?glyphs, ?pc, ?stack, ?halted⟩
  case glyphs =>
    intro j hj
    rw [hcfg, hglyphs _ ⟨Nat.le_add_right _ _, Nat.add_lt_add_left hj _⟩]
    exact h.glyphs j hj
  case pc => exact (pcTarget_of_exec hc.exec hc.state_ne_halted hc.unchanged).toNat_le hpc h.stack
  case stack =>
    intro k
    rcases stack_cases_of_exec hc.exec hc.unchanged k with hk | hk <;> rw [hk]
    · exact h.stack k
    · exact hpc
  case halted =>
    have herr : t.err = none := by rw [hc.err_eq, h.err_eq_none (by simp [hc.runs.1])]
    simp [hc.state_ne_halted, herr]

theorem State.Inv.step {s t : State} (h : s.Inv) (hstep : step s = .next t) : t.Inv := by
  cases hs : s.state with
  | running =>
    rcases running_step_cases hs hstep with ⟨op, e, -, rfl⟩ | ⟨i, hi⟩
    · exact h.failCycle op e
    · exact h.of_completes hi
  | awaitingKey =>
    obtain rfl : Machine.awaitPoll s = t := by simpa [step_of_awaitingKey hs] using hstep
    exact h.awaitPoll hs
  | halted =>
    obtain rfl : s = t := by simpa [step_of_halted hs] using hstep
    exact h

/-- Settles O15. -/
theorem stepKeepsTheInvariant : Obligations.StepKeepsTheInvariant := fun _ _ h => h.step

/-! ## The invariant after reset and under the host's operations -/

/-- After reset the glyph table holds its bitmaps and all else is zero. -/
theorem State.Inv.resetWith {c : Config} (hc : c.WellFormed) (n : Nat) : (State.resetWith c n).Inv where
  cfg := hc
  mem := State.resetWith_mem_wf c n
  glyphs j hj := by
    have hin : InGlyphTable c (c.glyphBase + j) := ⟨Nat.le_add_right _ _, Nat.add_lt_add_left hj _⟩
    change Memory.unlisted c (c.glyphBase + j) = c.glyphBytes.getD j 0x00
    rw [Memory.unlisted, if_pos hin, Nat.add_sub_cancel_left]
  pc := by simp [State.resetWith]
  stack k := by simp [State.resetWith]
  halted := by simp [State.resetWith]

/-- Settles O16. -/
theorem resetMeetsTheInvariant : Obligations.ResetMeetsTheInvariant :=
  ⟨State.Inv.resetWith (by decide) 0, fun _ n hc => State.Inv.resetWith hc n⟩

/-- An image that fits lies in memory (70_reset_and_hazards.md R151). -/
theorem programBase_add_length_le {image : List Byte} (h : ImageWellFormed image) :
    programBase + image.length ≤ memSize := by
  simp only [ImageWellFormed, maxProgram] at h
  simp only [programBase, memSize]
  omega

/-- The copy of a program image changes memory only. -/
theorem copyImage_eq (s : State) (a : Nat) (bs : List Byte) :
    copyImage s a bs = s.setMem (copyImage s a bs).mem := by
  induction bs generalizing s a with
  | nil => rfl
  | cons b bs ih =>
    rw [copyImage, ih]
    rfl

theorem loadProgram_of_fits {image : List Byte} (s : State) (h : ImageWellFormed image) :
    loadProgram s image = ((copyImage s programBase image).setPC 0x0200).setI 0x0000 := by
  rw [loadProgram, if_pos h]

theorem loadProgram_of_not_fits {image : List Byte} (s : State) (h : ¬ ImageWellFormed image) :
    loadProgram s image = (s.setErr (some (romTooLargeRecord image.length))).setState .halted := by
  rw [loadProgram, if_neg h]

theorem State.Inv.loadProgram {s : State} (h : s.Inv) (image : List Byte) : (loadProgram s image).Inv := by
  by_cases hfit : ImageWellFormed image
  case neg =>
    rw [loadProgram_of_not_fits s hfit]
    exact h.setErr_setState (by simp)
  rw [loadProgram_of_fits s hfit]
  have heq := copyImage_eq s programBase image
  obtain ⟨-, hmem, -, hframe⟩ := copyImage_spec (s := s) (programBase_add_length_le hfit) h.mem
  generalize copyImage s programBase image = t at heq hmem hframe ⊢
  have hcfg : t.cfg = s.cfg := by rw [heq]; rfl
  refine ⟨?cfg, ?mem, ?glyphs, ?pc, ?stack, ?halted⟩
  case cfg =>
    change t.cfg.WellFormed
    rw [hcfg]
    exact h.cfg
  case mem =>
    change Memory.wf t.cfg t.mem
    rw [hcfg]
    exact hmem
  case glyphs =>
    intro j hj
    have hlow : s.cfg.glyphBase + j < programBase := by
      have := h.cfg.1
      omega
    change t.readByte (t.cfg.glyphBase + j) = t.cfg.glyphBytes.getD j 0x00
    rw [hcfg, hframe _ (.inl hlow)]
    exact h.glyphs j hj
  case pc => exact (by decide : (0x0200 : Word).toNat ≤ 0x10FE)
  case stack =>
    change ∀ k : Fin 16, t.stack[k].toNat ≤ 0x1000
    rw [heq]
    exact h.stack
  case halted =>
    change t.state = .halted ↔ t.err ≠ none
    rw [heq]
    exact h.halted

/-- Every host operation keeps the invariant. -/
theorem State.Inv.perform {u u' : Session} {op : HostOp} (h : u.machine.Inv) (hop : u.perform op = .next u') :
    u'.machine.Inv := by
  have hkeep {t : State} (hcfg : t.cfg = u.machine.cfg) (hmem : t.mem = u.machine.mem) (hpc : t.pc = u.machine.pc)
      (hstack : t.stack = u.machine.stack) (hstate : t.state = u.machine.state) (herr : t.err = u.machine.err) :
      t.Inv := h.congr hcfg hmem hpc hstack hstate herr
  cases op with
  | reset => cases hop; exact State.Inv.resetWith h.cfg _
  | loadProgram image =>
    simp only [Session.perform] at hop
    split at hop
    · cases hop; exact h.loadProgram image
    · cases hop
  | step =>
    obtain ⟨t, ht⟩ := stepAlwaysAnswersANextState u.machine
    rw [Session.perform_step ht] at hop
    cases hop
    exact h.step ht
  | tick => cases hop; exact hkeep rfl rfl rfl rfl rfl rfl
  | setKeyDown code | setKeyUp code =>
    simp only [Session.perform] at hop
    split at hop
    · cases hop; exact hkeep rfl rfl rfl rfl rfl rfl
    · cases hop
  | clearRedraw => cases hop; exact hkeep rfl rfl rfl rfl rfl rfl
  | readDisplay | isSoundActive | readRedraw | readState | readErr => cases hop; exact h

/-! ## A predicate that the operations of a run keep -/

/-- A run of one operation and more: the operation answers a session, from which the rest runs. -/
theorem Session.run_cons {u u' : Session} {op : HostOp} {ops : List HostOp} (h : u.run (op :: ops) = .next u') :
    ∃ v, u.perform op = .next v ∧ v.run ops = .next u' := by
  rw [Session.run] at h
  split at h
  · next v hv => exact ⟨v, hv, h⟩
  · cases h
  · cases h

/-- What every operation of a finite run keeps holds at its end. -/
theorem Session.run_induction {P : Session → Prop} {ok : HostOp → Prop}
    (hkeep : ∀ u u' op, ok op → P u → u.perform op = .next u' → P u') {u u' : Session} {ops : List HostOp}
    (hok : ∀ op ∈ ops, ok op) (hu : P u) (h : u.run ops = .next u') : P u' := by
  induction ops generalizing u with
  | nil => cases h; exact hu
  | cons op ops ih =>
    obtain ⟨v, hv, hrun⟩ := Session.run_cons h
    rw [List.forall_mem_cons] at hok
    exact ih hok.2 (hkeep u v op hok.1 hu hv) hrun

/-- What the operations `n` to `m - 1` of an infinite run keep holds after them. -/
theorem Session.runsForever_induction {P : Session → Prop} {ok : HostOp → Prop}
    (hkeep : ∀ u u' op, ok op → P u → u.perform op = .next u' → P u') {u : Nat → Session} {ops : Nat → HostOp}
    (h : Session.RunsForever u ops) {n m : Nat} (hnm : n ≤ m) (hok : ∀ k, n ≤ k → k < m → ok (ops k))
    (hu : P (u n)) : P (u m) := by
  induction m, hnm using Nat.le_induction with
  | base => exact hu
  | succ m hnm ih =>
    exact hkeep _ _ _ (hok m hnm (Nat.lt_succ_self m)) (ih fun k hk hkm => hok k hk (by omega)) (h m)

/-- Settles O17: every operation keeps the invariant, so every finite and every infinite run does. -/
theorem everyRunKeepsTheInvariant : Obligations.EveryRunKeepsTheInvariant := by
  have hkeep : ∀ (u u' : Session) (op : HostOp), True → u.machine.Inv → u.perform op = .next u' → u'.machine.Inv :=
    fun _ _ _ _ h => h.perform
  constructor
  · intro u u' ops h hrun
    exact Session.run_induction hkeep (fun _ _ => trivial) h hrun
  · intro u ops h hrun n
    exact Session.runsForever_induction hkeep hrun (Nat.zero_le n) (fun _ _ _ => trivial) h

end Sys2Proof.Machine
end

section
/-! The instructions that access memory from I upward (43_index_memory.md R109, R113 to R116). -/

namespace Sys2Proof.Machine

/-! ## Stores -/

/-- What an instruction does whose whole effect is an allowed store of `bs` at I. -/
theorem exists_next_of_exec_eq_storeAtI {i : Instr} {s : State} {bs : List Byte}
    (h : exec i s = settle s (encode i) (storeAtI s bs)) (hw : Memory.wf s.cfg s.mem) (hpos : 0 < bs.length)
    (hallowed : StoreAllowed s bs.length) :
    ∃ t, exec i s = .next t ∧ (∀ k (hk : k < bs.length), t.readByte (s.i.toNat + k) = bs[k]) ∧
      (∀ a, (a < s.i.toNat ∨ s.i.toNat + bs.length ≤ a) → t.readByte a = s.readByte a) ∧
      Memory.wf t.cfg t.mem ∧ Unchanged [.memory] [] s t := by
  obtain ⟨t, ht⟩ := storeAtI_ok hpos hallowed.1 hallowed.2
  obtain ⟨-, hwf, hstored, hframe, -, -⟩ := writeBytes_spec (storeAtI_inv ht) hw
  exact ⟨t, by rw [h, ht, settle_ok], hstored, hframe, hwf, Unchanged.storeAtI ht⟩

@[simp] theorem decimalDigits_length (b : Byte) : (decimalDigits b).length = 3 := rfl

/-- Settles O39: the digits are below 10, so each is the byte stored. -/
theorem decimalDigitsAreStored : Obligations.DecimalDigitsAreStored := by
  intro x s hw hallowed
  obtain ⟨t, ht, hstored, hframe, hwf, hu⟩ :=
    exists_next_of_exec_eq_storeAtI (i := .ldBVx x) (bs := decimalDigits (s.getV x)) rfl hw (by simp) hallowed
  have hb := (s.getV x).isLt
  have h0 := hstored 0 (by simp)
  have h1 := hstored 1 (by simp)
  have h2 := hstored 2 (by simp)
  simp only [decimalDigits, List.getElem_cons_zero, List.getElem_cons_succ, Nat.add_zero] at h0 h1 h2
  refine ⟨t, ht, ?_, ?_, ?_, hframe, hwf, hu⟩
  · rw [h0, BitVec.toNat_ofNat]
    omega
  · rw [h1, BitVec.toNat_ofNat]
    omega
  · rw [h2, BitVec.toNat_ofNat]
    omega

/-- Settles O40. -/
theorem registerBlockIsStored : Obligations.RegisterBlockIsStored := by
  intro x s hw hallowed
  rw [← regsUpTo_length s x] at hallowed
  obtain ⟨t, ht, hstored, hframe, hwf, hu⟩ :=
    exists_next_of_exec_eq_storeAtI (i := .ldMemVx x) (bs := regsUpTo s x) rfl hw (by simp) hallowed
  rw [regsUpTo_length] at hframe
  refine ⟨t, ht, fun r hr => ?_, hframe, hwf, hu⟩
  have hlt : r.val < (regsUpTo s x).length := by
    rw [regsUpTo_length]
    exact Nat.lt_succ_of_le hr
  rw [hstored r.val hlt, regsUpTo_getElem]

/-! ## Loads -/

theorem exec_ldVxMem_of_le {x : Reg} {s : State} (h : s.i.toNat + (x.val + 1) ≤ memSize) :
    exec (.ldVxMem x) s =
      .next (setRegsFrom s 0 ((List.range (x.val + 1)).map fun k => s.readByte (s.i.toNat + k))) := by
  simp only [exec, execLdRegs, loadFromI_ok h, settle_ok]

/-- A register up to Vx after the load of a block. -/
theorem getV_setRegsFrom_range {s : State} {x r : Reg} (hr : r ≤ x) (f : Nat → Byte) :
    (setRegsFrom s 0 ((List.range (x.val + 1)).map f)).getV r = f r.val := by
  have hlt : r.val < x.val + 1 := Nat.lt_succ_of_le hr
  have hlen : ((List.range (x.val + 1)).map f).length = x.val + 1 := by simp
  rw [getV_setRegsFrom s 0 _ (by omega), dif_pos ⟨Nat.zero_le _, by omega⟩]
  simp

/-- Settles O41. -/
theorem registerBlockIsLoaded : Obligations.RegisterBlockIsLoaded := by
  intro x s h
  have hb : s.i.toNat + (x.val + 1) ≤ memSize := by
    simp only [memSize]
    omega
  exact ⟨_, exec_ldVxMem_of_le hb, fun r hr => getV_setRegsFrom_range hr _,
    Unchanged.setRegsFrom s x _ (by simp)⟩

/-- Settles O43: the bytes stored are those that the load reads. -/
theorem storeThenLoadRestoresRegisters : Obligations.StoreThenLoadRestoresRegisters := by
  intro x s t u hw _ hstore ht hmem hi hcfg
  change settle s _ (storeAtI s (regsUpTo s x)) = _ at hstore
  rcases settle_cases hstore with ⟨t', hok, heq⟩ | ⟨e, -, heq⟩
  case inr =>
    cases heq
    exact absurd rfl ht
  cases heq
  have hsi : t.i = s.i := (Unchanged.storeAtI hok).i (by simp)
  obtain ⟨-, -, hstored, -, -, hin⟩ := writeBytes_spec (storeAtI_inv hok) hw
  simp only [regsUpTo_length] at hin
  have hui : u.i.toNat = s.i.toNat := by rw [hi, hsi]
  have hread : ∀ a, u.readByte a = t.readByte a := fun a => by simp only [State.readByte, hmem, hcfg]
  have hb : u.i.toNat + (x.val + 1) ≤ memSize := by
    have := (hin x.val (Nat.lt_succ_self _)).1
    omega
  refine ⟨_, exec_ldVxMem_of_le hb, by rw [setRegsFrom_eq], fun r hr => ?_⟩
  have hlt : r.val < (regsUpTo s x).length := by
    rw [regsUpTo_length]
    exact Nat.lt_succ_of_le hr
  rw [getV_setRegsFrom_range hr, hread, hui, hstored r.val hlt, regsUpTo_getElem]

/-! ## The checks -/

/-- An instruction whose check raises `e` leaves the failed state of `e`. -/
theorem exec_eq_failedExec {i : Instr} {s : State} {e : Raised} (h : exec i s = settle s (encode i) (.error e)) :
    exec i s = .next (failedExec s i e.kind e.addr e.value) := h

theorem storeAtI_outOfBounds {s : State} {bs : List Byte} (h : 0xFFF < s.i.toNat + bs.length - 1) :
    storeAtI s bs = .error (.outOfBounds (max s.i.toNat 0x1000)) := by
  simp only [storeAtI, checkAccess_outOfBounds h]

theorem storeAtI_glyphWrite {s : State} {bs : List Byte} {g : Nat} (hb : s.i.toNat + bs.length - 1 ≤ 0xFFF)
    (hig : s.i.toNat ≤ g) (hg : g < s.i.toNat + bs.length) (hin : InGlyphTable s.cfg g)
    (hlow : ∀ a, s.i.toNat ≤ a → a < g → ¬ InGlyphTable s.cfg a) : storeAtI s bs = .error (.glyphWrite g) := by
  simp only [storeAtI, checkAccess_glyph hb hig hg hin hlow]

theorem exec_drw_outOfBounds {x y : Reg} {n : RowCount} {s : State} (hn : n.val ≠ 0)
    (h : 0xFFF < s.i.toNat + n.val - 1) :
    exec (.drw x y n) s = settle s (encode (.drw x y n)) (.error (.outOfBounds (max s.i.toNat 0x1000))) := by
  simp only [exec, execDrw, spriteRows_error hn h]

theorem exec_ldVxMem_outOfBounds {x : Reg} {s : State} (h : 0xFFF < s.i.toNat + (x.val + 1) - 1) :
    exec (.ldVxMem x) s = settle s (encode (.ldVxMem x)) (.error (.outOfBounds (max s.i.toNat 0x1000))) := by
  simp only [exec, execLdRegs, loadFromI_error h]

/-- The four instructions that access memory, each with the number of its bytes. -/
theorem exec_outOfBounds {i : Instr} {s : State} (hpos : 0 < accessedBytes i)
    (h : 0xFFF < s.i.toNat + accessedBytes i - 1) :
    exec i s = settle s (encode i) (.error (.outOfBounds (max s.i.toNat 0x1000))) := by
  cases i with
  | drw x y n => exact exec_drw_outOfBounds hpos.ne' h
  | ldBVx x => exact congrArg (settle s _) (storeAtI_outOfBounds h)
  | ldMemVx x => exact congrArg (settle s _) (storeAtI_outOfBounds (by rw [regsUpTo_length]; exact h))
  | ldVxMem x => exact exec_ldVxMem_outOfBounds h
  | _ => exact absurd hpos (lt_irrefl 0)

/-- Settles O42: bounds come first, then the glyph table; each check reports its lowest address. -/
theorem accessChecksFailTheCycle : Obligations.AccessChecksFailTheCycle := by
  intro s i hpos
  refine ⟨fun h => exec_eq_failedExec (exec_outOfBounds hpos h), fun g hi hb hig hg hin hlow => ?_⟩
  refine exec_eq_failedExec (e := .glyphWrite g) ?_
  obtain ⟨x, rfl | rfl⟩ := hi
  · exact congrArg (settle s _) (storeAtI_glyphWrite hb hig hg hin hlow)
  · simp only [accessedBytes] at hb hg
    rw [← regsUpTo_length s x] at hb hg
    exact congrArg (settle s _) (storeAtI_glyphWrite hb hig hg hin hlow)

end Sys2Proof.Machine
end

section
/-! Dxyn: one draw, and a second one at the same place (44_display.md R118, R119). -/

namespace Sys2Proof.Machine

theorem exec_drw_of_le {x y : Reg} {n : RowCount} {s : State} (h : n.val = 0 ∨ s.i.toNat + n.val - 1 ≤ 0xFFF) :
    exec (.drw x y n) s = .next (drawSprite s (s.getV x) (s.getV y)
      ((List.range n.val).map fun k => s.readByte (s.i.toNat + k))) := by
  have hb : n.val = 0 ∨ s.i.toNat + n.val ≤ memSize := by
    simp only [memSize]
    omega
  simp only [exec, execDrw, spriteRows_ok hb, settle_ok]

/-- What Dxyn does: exclusive or of the sprite's set pixels into the display, and the collision flag in VF. -/
theorem exists_next_drw {x y : Reg} {n : RowCount} {s : State} (h : n.val = 0 ∨ s.i.toNat + n.val - 1 ≤ 0xFFF) :
    ∃ t f, exec (.drw x y n) s = .next t ∧
      (∀ X Y, t.display.cell X Y = true ↔
        Xor (s.display.cell X Y = true) (SpriteSets s (s.getV x) (s.getV y) n X Y)) ∧
      t.getV VF = flagByte f ∧
      (f = true ↔ ∃ X Y, SpriteSets s (s.getV x) (s.getV y) n X Y ∧ s.display.cell X Y = true) ∧
      t.redraw = true ∧ Unchanged [.display, .redraw] [VF] s t := by
  obtain ⟨hcells, hflag⟩ := drawRows_spec (s.getV x) (s.getV y)
    ((List.range n.val).map fun k => s.readByte (s.i.toNat + k))
    (by rw [List.length_map, List.length_range]; omega) 0 ⟨s.display, false⟩
  simp only [rowsSet_iff_spriteSets, Bool.false_eq_true, false_or] at hcells hflag
  exact ⟨_, _, exec_drw_of_le h, hcells, State.getV_setV_self _ _ _, hflag, rfl, Unchanged.drawSprite s _ _ _⟩

/-- Settles O45. -/
theorem drawXorsTheSprite : Obligations.DrawXorsTheSprite := by
  intro x y n s h
  obtain ⟨t, f, ht, hcells, hVF, hflag, hredraw, hu⟩ := exists_next_drw (x := x) (y := y) h
  refine ⟨t, ht, hcells, fun hhit => ?hit, fun hmiss => ?miss, hredraw, hu⟩
  case hit => rw [hVF, hflag.2 hhit, flagByte_true]
  case miss =>
    have hf : f = false := by
      rw [Bool.eq_false_iff]
      intro hf
      obtain ⟨X, Y, hset, hcell⟩ := hflag.1 hf
      simp [hmiss X Y hset] at hcell
    rw [hVF, hf, flagByte_false]

/-- The pixels of a sprite depend on I, memory and the parameters only. -/
theorem spriteSets_congr {s u : State} (hmem : u.mem = s.mem) (hi : u.i = s.i) (hcfg : u.cfg = s.cfg) :
    SpriteSets u = SpriteSets s := by
  funext vx vy n X Y
  simp only [SpriteSets, State.readByte, hmem, hi, hcfg]

/-- A byte is not zero exactly when one of its eight pixels is set. -/
theorem exists_pixel_iff_ne_zero (b : Byte) : (∃ c < 8, b.getLsbD (7 - c) = true) ↔ b ≠ 0 := by
  constructor
  · rintro ⟨c, -, hc⟩ rfl
    simp at hc
  · intro hb
    by_contra hnone
    push Not at hnone
    refine hb (BitVec.eq_of_getLsbD_eq fun j hj => ?_)
    have := hnone (7 - j) (by omega)
    rw [show 7 - (7 - j) = j by omega] at this
    simpa using this

/-- A sprite sets a pixel somewhere exactly when one of its bytes is not zero. -/
theorem exists_spriteSets_iff {s : State} {vx vy : Byte} {n : RowCount} :
    (∃ X Y, SpriteSets s vx vy n X Y) ↔ ∃ r < n.val, s.readByte (s.i.toNat + r) ≠ 0 := by
  simp only [← exists_pixel_iff_ne_zero]
  constructor
  · rintro ⟨X, Y, r, hr, c, hc, -, -, hbit⟩
    exact ⟨r, hr, c, hc, hbit⟩
  · rintro ⟨r, hr, c, hc, hbit⟩
    exact ⟨targetColumn vx c, targetRow vy r, r, hr, c, hc, rfl, rfl, hbit⟩

/-- Exclusive or with the same proposition twice. -/
theorem xor_xor_cancel (p q : Prop) : Xor (Xor p q) q ↔ p := by
  unfold Xor
  tauto

theorem flagByte_eq_one_iff (f : Bool) : flagByte f = 1 ↔ f = true := by cases f <;> decide

/-- Settles O46: the second draw meets the cells that the first one has just set. -/
theorem drawTwiceRestoresTheDisplay : Obligations.DrawTwiceRestoresTheDisplay := by
  intro x y n s t u h ht hdisplay hmem hi hcfg hx hy
  obtain ⟨t', -, ht', hcells, -⟩ := exists_next_drw (x := x) (y := y) h
  obtain rfl : t' = t := by simpa [ht'] using ht
  obtain ⟨w, f, hw, hcells', hVF, hflag, -⟩ := exists_next_drw (x := x) (y := y) (s := u) (by rwa [hi])
  rw [hx, hy, spriteSets_congr hmem hi hcfg] at hcells' hflag
  simp only [hdisplay, hcells] at hcells' hflag
  have hone : w.getV VF = 1 ↔ ∃ X Y, SpriteSets s (s.getV x) (s.getV y) n X Y ∧ s.display.cell X Y = false := by
    rw [hVF, flagByte_eq_one_iff, hflag]
    refine exists_congr fun X => exists_congr fun Y => and_congr_right fun hset => ?_
    simp [Xor, hset]
  refine ⟨w, hw, ?restored, ?bit, hone, fun hclear => ?clear⟩
  case restored =>
    refine Display.ext_cell fun X Y => ?_
    rw [Bool.eq_iff_iff, hcells']
    exact xor_xor_cancel _ _
  case bit =>
    rw [hVF]
    cases f
    · exact .inl rfl
    · exact .inr rfl
  case clear =>
    rw [hone, ← exists_spriteSets_iff (vx := s.getV x) (vy := s.getV y)]
    refine exists_congr fun X => exists_congr fun Y => and_iff_left_of_imp (hclear X Y)

end Sys2Proof.Machine
end

section
/-! What one step can change: registers, I, the stack, memory, the display, the latches (10_state.md R18, 20_memory.md R44,
R51, 44_display.md R120). -/

namespace Sys2Proof.Machine

/-! ## The frame of a step -/

/-- From RUNNING, a step completes an instruction or changes the interpreter state and the error record only. -/
theorem running_step_frame {s t : State} (hs : s.state = .running) (h : step s = .next t) :
    (∃ i, Completes s i t) ∨ Unchanged [.state, .err] [] s t := by
  rcases running_step_cases hs h with ⟨op, e, -, rfl⟩ | hc
  · exact .inr (Unchanged.failCycle s op e)
  · exact .inl hc

/-- From any interpreter state, a step completes an instruction or changes the interpreter state, the error record and the
latched register only. -/
theorem step_completes_or_unchanged {s t : State} (h : step s = .next t) :
    (∃ i, Completes s i t) ∨ Unchanged [.state, .err] [s.waitReg] s t := by
  cases hs : s.state with
  | running => exact (running_step_frame hs h).imp_right fun hu => hu.mono (fun _ hi => hi) (by simp)
  | awaitingKey =>
    obtain rfl : awaitPoll s = t := by simpa [step_of_awaitingKey hs] using h
    exact .inr ((Unchanged.awaitPoll s).mono (by simp) (fun _ hr => hr))
  | halted =>
    obtain rfl : s = t := by simpa [step_of_halted hs] using h
    exact .inr (.refl _ _ s)

/-! ## Which instruction writes an item -/

theorem i_mem_writtenItems {i : Instr} (h : Item.i ∈ writtenItems i) :
    (∃ nnn, i = .ldI nnn) ∨ ∃ x, i = .addIVx x ∨ i = .ldFVx x := by
  cases i <;> simp [writtenItems] at h ⊢

theorem display_mem_writtenItems {i : Instr} (h : Item.display ∈ writtenItems i) :
    i = .cls ∨ ∃ x y n, i = .drw x y n := by
  cases i <;> simp [writtenItems] at h ⊢

theorem redraw_mem_writtenItems {i : Instr} (h : Item.redraw ∈ writtenItems i) :
    i = .cls ∨ ∃ x y n, i = .drw x y n := by
  cases i <;> simp [writtenItems] at h ⊢

theorem waitReg_mem_writtenItems {i : Instr} (h : Item.waitReg ∈ writtenItems i) : ∃ x, i = .ldVxK x := by
  cases i <;> simp [writtenItems] at h ⊢

theorem keys_not_mem_writtenItems (i : Instr) : Item.keys ∉ writtenItems i := by cases i <;> simp [writtenItems]

/-- An instruction that writes the redraw level and completes leaves it set (44_display.md R120). -/
theorem Completes.redraw_eq_true {s t : State} {i : Instr} (hc : Completes s i t) (hi : Item.redraw ∈ writtenItems i) :
    t.redraw = true := by
  have hx := hc.exec
  rcases redraw_mem_writtenItems hi with rfl | ⟨x, y, n, rfl⟩
  · cases hx
    rfl
  · rcases settle_cases hx with ⟨t', hok, heq⟩ | ⟨e, -, heq⟩ <;> cases heq
    · split at hok <;> cases hok
      rfl
    · exact absurd rfl hc.state_ne_halted

/-! ## The obligations about what a step can change -/

/-- Settles O18: an item or a register that changed is one that the instruction that ran writes. -/
theorem onlyNamedInstructionsWriteRegistersAndMemory : Obligations.OnlyNamedInstructionsWriteRegistersAndMemory := by
  intro s t hs hw h
  rcases running_step_frame hs h with ⟨i, hc⟩ | hu
  case inr =>
    exact ⟨fun r hr => absurd (hu.v r (by simp)) hr, fun hi => absurd (hu.i (by simp)) hi,
      fun hst => (hst.elim (fun hsp => hsp (hu.sp (by simp))) fun hstack => hstack (hu.stack (by simp))).elim,
      fun a ha => absurd (hu.memory (by simp) a) ha⟩
  have hu := hc.unchanged
  refine ⟨fun r hr => ?regs, fun hi => ?i, fun hst => ?stack, fun a ha => ?memory⟩
  case regs => exact ⟨i, hc.runs, by_contra fun hn => hr (hu.v r hn)⟩
  case i =>
    rcases i_mem_writtenItems (by_contra fun hn => hi (hu.i hn)) with ⟨nnn, rfl⟩ | ⟨x, rfl | rfl⟩
    · exact .inl ⟨nnn, hc.runs⟩
    · exact .inr ⟨x, .inl hc.runs⟩
    · exact .inr ⟨x, .inr hc.runs⟩
  case stack =>
    have hmem : Item.stack ∈ writtenItems i := by_contra fun hn =>
      hst.elim (fun hsp => hsp (hu.sp hn)) fun hstack => hstack (hu.stack hn)
    rcases stack_mem_writtenItems hmem with rfl | ⟨nnn, rfl⟩
    · exact .inl hc.runs
    · exact .inr ⟨nnn, hc.runs⟩
  case memory =>
    obtain ⟨-, -, -, hbytes⟩ := exec_memory (s := s.advance) hw hc.exec
    exact ⟨i, hc.runs, hbytes a ha⟩

/-- Settles O20: an item that changed is one that the instruction that ran writes, and no instruction clears the redraw
level. -/
theorem onlyNamedInstructionsWriteDisplayAndLatches : Obligations.OnlyNamedInstructionsWriteDisplayAndLatches := by
  intro s t h
  rcases step_completes_or_unchanged h with ⟨i, hc⟩ | hu
  case inr =>
    exact ⟨fun hd => (hd.elim (fun hd => hd (hu.display (by simp))) fun hr => hr (hu.redraw (by simp))).elim,
      fun hw => absurd (hu.waitReg (by simp)) hw, hu.keys (by simp), hu.cfg, (hu.redraw (by simp)).trans⟩
  have hu := hc.unchanged
  refine ⟨fun hd => ?display, fun hw => ?waitReg, hu.keys (keys_not_mem_writtenItems i), hu.cfg, fun hr => ?redraw⟩
  case display =>
    have hi : i = .cls ∨ ∃ x y n, i = .drw x y n := by
      rcases hd with hd | hr
      · exact display_mem_writtenItems (by_contra fun hn => hd (hu.display hn))
      · exact redraw_mem_writtenItems (by_contra fun hn => hr (hu.redraw hn))
    rcases hi with rfl | ⟨x, y, n, rfl⟩
    · exact .inl hc.runs
    · exact .inr ⟨x, y, n, hc.runs⟩
  case waitReg =>
    obtain ⟨x, rfl⟩ := waitReg_mem_writtenItems (by_contra fun hn => hw (hu.waitReg hn))
    exact ⟨x, hc.runs⟩
  case redraw =>
    by_cases hi : Item.redraw ∈ writtenItems i
    · exact hc.redraw_eq_true hi
    · exact (hu.redraw hi).trans hr

/-- Settles O21: the checked stores never touch the glyph table, and nothing else in a step writes memory. -/
theorem glyphTableIsImmutable : Obligations.GlyphTableIsImmutable := by
  intro s t a hw h ha
  rcases step_completes_or_unchanged h with ⟨i, hc⟩ | hu
  · obtain ⟨-, -, hglyphs, -⟩ := exec_memory (s := s.advance) hw hc.exec
    exact hglyphs a ha
  · exact hu.memory (by simp) a

end Sys2Proof.Machine
end

section
/-! What cannot be observed: the display but for the collision flag (44_display.md R121), and the stack entries not in use
(10_state.md R29). Both follow from one commuting lemma: an instruction that writes neither the display nor the stack does
the same whatever they hold. -/

namespace Sys2Proof.Machine

/-! ## Another display and other stack entries -/

/-- `s` with the display cells `d` and the stack entries `entries`, at the same depth. -/
def State.withDisplayStack (s : State) (d : Display) (entries : Vector Word 16) : State :=
  { s with display := d, stack := entries }

section WithDisplayStack
variable (s : State) (d : Display) (entries : Vector Word 16)

@[simp] theorem State.withDisplayStack_cfg : (s.withDisplayStack d entries).cfg = s.cfg := rfl

@[simp] theorem State.withDisplayStack_i : (s.withDisplayStack d entries).i = s.i := rfl

theorem skipIf_withDisplayStack (b : Bool) :
    skipIf (s.withDisplayStack d entries) b = (skipIf s b).withDisplayStack d entries := by
  cases b <;> rfl

theorem writeLogic_withDisplayStack (x : Reg) (b : Byte) :
    writeLogic (s.withDisplayStack d entries) x b = (writeLogic s x b).withDisplayStack d entries := by
  unfold writeLogic
  rw [apply_ite (State.withDisplayStack · d entries)]
  rfl

theorem setRegsFrom_withDisplayStack (k : Nat) (bs : List Byte) :
    setRegsFrom (s.withDisplayStack d entries) k bs = (setRegsFrom s k bs).withDisplayStack d entries := by
  rw [setRegsFrom_eq, setRegsFrom_eq s]
  refine congrArg (fun v => ({ s with v := v } : State).withDisplayStack d entries) ?_
  induction bs generalizing s k with
  | nil => rfl
  | cons b bs ih =>
    unfold setRegsFrom
    split
    · exact ih (s.setV _ b) (k + 1)
    · rfl

theorem memWrite_withDisplayStack (a : Nat) (b : Byte) :
    memWrite (s.withDisplayStack d entries) a b = (memWrite s a b).map (State.withDisplayStack · d entries) := by
  unfold memWrite
  rw [apply_ite (Except.map _), apply_ite (Except.map _)]
  rfl

theorem writeBytes_withDisplayStack (a : Nat) (bs : List Byte) :
    writeBytes (s.withDisplayStack d entries) a bs = (writeBytes s a bs).map (State.withDisplayStack · d entries) := by
  induction bs generalizing s a with
  | nil => rfl
  | cons b bs ih =>
    rw [writeBytes, writeBytes, memWrite_withDisplayStack]
    cases memWrite s a b with
    | error e => rfl
    | ok t => exact ih t (a + 1)

theorem storeAtI_withDisplayStack (bs : List Byte) :
    storeAtI (s.withDisplayStack d entries) bs = (storeAtI s bs).map (State.withDisplayStack · d entries) := by
  simp only [storeAtI, State.withDisplayStack_cfg, State.withDisplayStack_i]
  cases checkAccess s.cfg .write s.i.toNat bs.length with
  | error e => rfl
  | ok _ => exact writeBytes_withDisplayStack s d entries s.i.toNat bs

variable {s}

theorem settle_storeAtI_withDisplayStack {op : Word} {bs : List Byte} {t : State}
    (h : settle s op (storeAtI s bs) = .next t) :
    settle (s.withDisplayStack d entries) op (storeAtI (s.withDisplayStack d entries) bs) =
      .next (t.withDisplayStack d entries) := by
  rw [storeAtI_withDisplayStack]
  rcases settle_cases h with ⟨t', hr, heq⟩ | ⟨e, hr, heq⟩
  · cases heq
    rw [hr]
    rfl
  · cases heq
    rw [hr]
    rfl

/-- An instruction that writes neither the display nor the stack does the same whatever they hold. -/
theorem exec_withDisplayStack {i : Instr} {t : State} (hd : Item.display ∉ writtenItems i)
    (hst : Item.stack ∉ writtenItems i) (h : exec i s = .next t) :
    exec i (s.withDisplayStack d entries) = .next (t.withDisplayStack d entries) := by
  cases i with
  | cls | ret | call nnn | drw x y n => simp [writtenItems] at hd hst
  | seImm x nn | sneImm x nn | seReg x y | sneReg x y =>
    cases h
    exact congrArg Host.Outcome.next (skipIf_withDisplayStack s d entries _)
  | orReg x y | andReg x y | xorReg x y =>
    cases h
    exact congrArg Host.Outcome.next (writeLogic_withDisplayStack s d entries x _)
  | skp x =>
    rcases key_or_gt (s.getV x) with ⟨k, hk⟩ | hgt
    · rw [exec_skp_of_key hk] at h
      cases h
      exact (exec_skp_of_key (s := s.withDisplayStack d entries) hk).trans
        (congrArg _ (skipIf_withDisplayStack s d entries _))
    · rw [exec_skp_keyIndex hgt] at h
      cases h
      exact exec_skp_keyIndex hgt
  | sknp x =>
    rcases key_or_gt (s.getV x) with ⟨k, hk⟩ | hgt
    · rw [exec_sknp_of_key hk] at h
      cases h
      exact (exec_sknp_of_key (s := s.withDisplayStack d entries) hk).trans
        (congrArg _ (skipIf_withDisplayStack s d entries _))
    · rw [exec_sknp_keyIndex hgt] at h
      cases h
      exact exec_sknp_keyIndex hgt
  | ldBVx x => exact settle_storeAtI_withDisplayStack d entries h
  | ldMemVx x => exact settle_storeAtI_withDisplayStack d entries h
  | ldVxMem x =>
    rcases Nat.lt_or_ge 0xFFF (s.i.toNat + (x.val + 1) - 1) with hout | hin
    · rw [exec_ldVxMem_outOfBounds hout] at h
      cases h
      exact exec_ldVxMem_outOfBounds hout
    · have hb : s.i.toNat + (x.val + 1) ≤ memSize := by
        simp only [memSize]
        omega
      rw [exec_ldVxMem_of_le hb] at h
      cases h
      exact (exec_ldVxMem_of_le (s := s.withDisplayStack d entries) hb).trans
        (congrArg _ (setRegsFrom_withDisplayStack s d entries 0 _))
  | _ =>
    cases h
    rfl

end WithDisplayStack

/-- An instruction that does not write the stack leaves it as it was, also when its cycle fails. -/
theorem stack_eq_of_exec {i : Instr} {s t : State} (h : exec i s = .next t) (hst : Item.stack ∉ writtenItems i) :
    t.sp = s.sp ∧ t.stack = s.stack := by
  rcases exec_cases i s with ⟨t', ht', -, hu⟩ | ⟨e, hf, -⟩
  · obtain rfl : t' = t := by simpa [ht'] using h
    exact ⟨hu.sp hst, hu.stack hst⟩
  · rw [hf] at h
    cases h
    exact ⟨rfl, rfl⟩

/-- An instruction that does not write the display leaves it as it was, also when its cycle fails. -/
theorem display_eq_of_exec {i : Instr} {s t : State} (h : exec i s = .next t) (hd : Item.display ∉ writtenItems i) :
    t.display = s.display := by
  rcases exec_cases i s with ⟨t', ht', -, hu⟩ | ⟨e, hf, -⟩
  · obtain rfl : t' = t := by simpa [ht'] using h
    exact hu.display hd
  · rw [hf] at h
    cases h
    rfl

/-! ## The display -/

/-- What two runs have in common that began in states that differ in the display alone. -/
def AgreeButDisplayAndVF (i : Instr) (t t' : State) : Prop :=
  (∀ r, r ≠ VF → t'.getV r = t.getV r) ∧ ((∀ x y n, i ≠ .drw x y n) → t'.getV VF = t.getV VF) ∧
    t' = { t with v := t'.v, display := t'.display }

/-- States that differ in the display alone agree. -/
theorem agree_with_display (i : Instr) (t : State) (d : Display) :
    AgreeButDisplayAndVF i t { t with display := d } :=
  ⟨fun _ _ => rfl, fun _ => rfl, rfl⟩

/-- A draw on another display: the sprite drawn is the same, so only VF and the display can differ. -/
theorem agree_drawSprite (x y : Reg) (n : RowCount) (s : State) (d : Display) (vx vy : Byte) (rows : List Byte) :
    AgreeButDisplayAndVF (.drw x y n) (drawSprite s vx vy rows) (drawSprite { s with display := d } vx vy rows) := by
  refine ⟨fun r hr => ?_, fun h => absurd rfl (h x y n), rfl⟩
  have hs := (Unchanged.drawSprite s vx vy rows).v r (by simpa using hr)
  have hd := (Unchanged.drawSprite { s with display := d } vx vy rows).v r (by simpa using hr)
  exact hd.trans hs.symm

/-- Settles O22: the four instructions that write the display or the stack one by one, all others by the commuting lemma. -/
theorem displayIsSeenOnlyThroughVF : Obligations.DisplayIsSeenOnlyThroughVF := by
  intro s t i d h
  suffices hagree : ∃ t', exec i { s with display := d } = .next t' ∧ AgreeButDisplayAndVF i t t' from hagree
  cases i with
  | cls =>
    cases h
    exact ⟨_, rfl, agree_with_display .cls _ Display.clear⟩
  | ret =>
    rcases Nat.eq_zero_or_pos s.sp.val with h0 | hpos
    · rw [exec_ret_underflow h0] at h
      cases h
      exact ⟨_, exec_ret_underflow h0, agree_with_display .ret _ d⟩
    · obtain ⟨top, htop⟩ := exists_top_of_depth hpos
      rw [exec_ret_of_depth top htop] at h
      cases h
      exact ⟨_, exec_ret_of_depth (s := { s with display := d }) top htop, agree_with_display .ret _ d⟩
  | call nnn =>
    rcases Nat.lt_or_ge s.sp.val 16 with hlt | hge
    · rw [exec_call_of_lt hlt] at h
      cases h
      exact ⟨_, exec_call_of_lt (s := { s with display := d }) hlt, agree_with_display (.call nnn) _ d⟩
    · have h16 : s.sp.val = 16 := by omega
      rw [exec_call_overflow h16] at h
      cases h
      exact ⟨_, exec_call_overflow h16, agree_with_display (.call nnn) _ d⟩
  | drw x y n =>
    by_cases hb : n.val = 0 ∨ s.i.toNat + n.val - 1 ≤ 0xFFF
    · rw [exec_drw_of_le hb] at h
      cases h
      exact ⟨_, exec_drw_of_le hb, agree_drawSprite x y n s d _ _ _⟩
    · have hn : n.val ≠ 0 := fun h0 => hb (.inl h0)
      have hout : 0xFFF < s.i.toNat + n.val - 1 := by omega
      rw [exec_drw_outOfBounds hn hout] at h
      cases h
      exact ⟨_, exec_drw_outOfBounds hn hout, agree_with_display (.drw x y n) _ d⟩
  | _ =>
    obtain ⟨-, hstack⟩ := stack_eq_of_exec h (by simp [writtenItems])
    have ht : t.withDisplayStack d s.stack = { t with display := d } := by
      rw [← hstack]
      rfl
    refine ⟨_, exec_withDisplayStack d s.stack (by simp [writtenItems]) (by simp [writtenItems]) h, ?_⟩
    rw [ht]
    exact agree_with_display _ t d

/-! ## The stack entries not in use -/

/-- A state that agrees but for entries not in use is the state with other entries. -/
theorem exists_setStack_of_sameUsedStack {s t : State} (h : SameUsedStack s t) :
    ∃ entries, t = s.setStack entries s.sp ∧ ∀ k : Fin 16, k.val < s.sp.val → entries[k] = s.stack[k] :=
  ⟨t.stack, h.1, h.2⟩

/-- An instruction run on two states that agree but for entries not in use leaves states that do. -/
theorem exec_sameUsedStack {i : Instr} {s t s' : State} (hst : SameUsedStack s t) (h : exec i s = .next s') :
    ∃ t', exec i t = .next t' ∧ SameUsedStack s' t' := by
  obtain ⟨entries, rfl, hent⟩ := exists_setStack_of_sameUsedStack hst
  by_cases hi : Item.stack ∈ writtenItems i
  case pos =>
    rcases stack_mem_writtenItems hi with rfl | ⟨nnn, rfl⟩
    · rcases Nat.eq_zero_or_pos s.sp.val with h0 | hpos
      · rw [exec_ret_underflow h0] at h
        cases h
        exact ⟨_, exec_ret_underflow h0, rfl, hent⟩
      · obtain ⟨top, htop⟩ := exists_top_of_depth hpos
        rw [exec_ret_of_depth top htop, ← hent top (by omega)] at h
        cases h
        refine ⟨_, exec_ret_of_depth (s := s.setStack entries s.sp) top htop, rfl, fun k hk => hent k ?_⟩
        change k.val < top.val at hk
        omega
    · rcases Nat.lt_or_ge s.sp.val 16 with hlt | hge
      · rw [exec_call_of_lt hlt] at h
        cases h
        refine ⟨_, exec_call_of_lt (s := s.setStack entries s.sp) hlt, rfl, fun k hk => ?_⟩
        change k.val < s.sp.val + 1 at hk
        change (entries.set s.sp.val s.pc hlt)[k] = (s.stack.set s.sp.val s.pc hlt)[k]
        simp only [Fin.getElem_fin, Vector.getElem_set]
        split
        · rfl
        · exact hent k (by omega)
      · have h16 : s.sp.val = 16 := by omega
        rw [exec_call_overflow h16] at h
        cases h
        exact ⟨_, exec_call_overflow h16, rfl, hent⟩
  case neg =>
    obtain ⟨hsp, hstack⟩ := stack_eq_of_exec h hi
    by_cases hd : Item.display ∈ writtenItems i
    case neg =>
      have hdisplay := display_eq_of_exec h hd
      refine ⟨_, exec_withDisplayStack s.display entries hd hi h, ?_, fun k hk => ?_⟩
      · rw [← hdisplay]
        rfl
      · rw [hsp] at hk
        rw [hstack]
        exact hent k hk
    case pos =>
      rcases display_mem_writtenItems hd with rfl | ⟨x, y, n, rfl⟩
      · cases h
        exact ⟨_, rfl, rfl, hent⟩
      · by_cases hb : n.val = 0 ∨ s.i.toNat + n.val - 1 ≤ 0xFFF
        · rw [exec_drw_of_le hb] at h
          cases h
          exact ⟨_, exec_drw_of_le (s := s.setStack entries s.sp) hb, rfl, hent⟩
        · have hn : n.val ≠ 0 := fun h0 => hb (.inl h0)
          have hout : 0xFFF < s.i.toNat + n.val - 1 := by omega
          rw [exec_drw_outOfBounds hn hout] at h
          cases h
          exact ⟨_, exec_drw_outOfBounds (s := s.setStack entries s.sp) hn hout, rfl, hent⟩

/-- Settles O23. -/
theorem unusedStackEntriesAreNotObservable : Obligations.UnusedStackEntriesAreNotObservable := by
  intro s t s' hst h
  cases hs : s.state with
  | running =>
    rw [step_of_running hs] at h
    rcases runCycle_cases s with ⟨hpc, hr⟩ | ⟨hpc, ⟨e, hd⟩, hr⟩ | ⟨i, hpc, hd, hr⟩ <;> rw [hr] at h
    · obtain ⟨entries, rfl, hent⟩ := exists_setStack_of_sameUsedStack hst
      cases h
      exact ⟨_, step_of_fetch_error (s := s.setStack entries s.sp) hs hpc, rfl, hent⟩
    · obtain ⟨entries, rfl, hent⟩ := exists_setStack_of_sameUsedStack hst
      cases h
      exact ⟨_, step_of_decode_error (s := s.setStack entries s.sp) hs hpc hd, rfl, hent⟩
    · have hruns : Runs t i := by
        rw [hst.1]
        exact ⟨hs, hpc, hd⟩
      rw [step_of_runs hruns]
      have hadvance : SameUsedStack s.advance t.advance := by
        obtain ⟨entries, rfl, hent⟩ := exists_setStack_of_sameUsedStack hst
        exact ⟨rfl, hent⟩
      exact exec_sameUsedStack hadvance h
  | awaitingKey =>
    obtain rfl : awaitPoll s = s' := by simpa [step_of_awaitingKey hs] using h
    obtain ⟨entries, rfl, hent⟩ := exists_setStack_of_sameUsedStack hst
    refine ⟨_, step_of_awaitingKey (s := s.setStack entries s.sp) hs, ?_⟩
    rcases no_key_or_lowestKeyDown s with hnone | ⟨k, hk⟩
    · rw [awaitPoll_of_no_key hnone, awaitPoll_of_no_key (s := s.setStack entries s.sp) hnone]
      exact hst
    · rw [awaitPoll_of_lowestKeyDown hk, awaitPoll_of_lowestKeyDown (s := s.setStack entries s.sp) hk]
      exact ⟨rfl, hent⟩
  | halted =>
    obtain rfl : s = s' := by simpa [step_of_halted hs] using h
    have ht : t.state = .halted := by rw [hst.1, hs]
    exact ⟨t, step_of_halted ht, hst⟩

end Sys2Proof.Machine
end

section
/-! The host's operations: ticks, key events, reads, reset and load, each by itself (60_exceptions.md R137 to R143,
70_reset_and_hazards.md R149 to R153). -/

namespace Sys2Proof.Machine

/-! ## Ticks, key events and reads -/

/-- One tick of a timer (60_exceptions.md R137). -/
theorem countDown_toNat (b : Byte) : (if b = 0 then 0 else b - 1).toNat = b.toNat - 1 := by
  split
  · next h => simp [h]
  · next h =>
    have hpos : b.toNat ≠ 0 := fun h0 => h (BitVec.eq_of_toNat_eq h0)
    have hle : (1 : Byte).toNat ≤ b.toNat := Nat.one_le_iff_ne_zero.2 hpos
    exact BitVec.toNat_sub_of_le hle

theorem isSoundActive_iff (s : State) : isSoundActive s = true ↔ 0 < s.st.toNat := decide_eq_true_iff

/-- Settles O51: each timer counts down by itself, and a sound level is left when ST was above 1. -/
theorem tickCountsDown : Obligations.TickCountsDown := by
  intro s
  have hst : (tick s).st.toNat = s.st.toNat - 1 := countDown_toNat s.st
  refine ⟨countDown_toNat s.dt, hst, ?frame, ?sound⟩
  case frame =>
    exact ((Unchanged.setDT s _).mono (by simp) (by simp)).trans ((Unchanged.setST _ _).mono (by simp) (by simp))
  case sound =>
    rw [isSoundActive_iff, hst]
    omega

/-- A key event of a legal code sets that key (60_exceptions.md R140). -/
theorem perform_setKeyDown {u : Session} (k : Fin 16) :
    u.perform (.setKeyDown k.val) = .next ⟨u.machine.setKey k true, u.loadable⟩ :=
  dif_pos (Nat.le_of_lt_succ k.isLt)

theorem perform_setKeyUp {u : Session} (k : Fin 16) :
    u.perform (.setKeyUp k.val) = .next ⟨u.machine.setKey k false, u.loadable⟩ :=
  dif_pos (Nat.le_of_lt_succ k.isLt)

/-- The keys after a key event (60_exceptions.md R140). -/
theorem keyEvent_spec (s : State) (k : Fin 16) (down : Bool) :
    (s.setKey k down).keyDown k = down ∧ (∀ j, j ≠ k → (s.setKey k down).keyDown j = s.keyDown j) ∧
      Unchanged [.keys] [] s (s.setKey k down) :=
  ⟨by rw [State.keyDown_setKey, if_pos rfl], fun j hj => by rw [State.keyDown_setKey, if_neg hj],
    Unchanged.setKey s k down⟩

/-- Settles O52. -/
theorem keyEventsSetTheKey : Obligations.KeyEventsSetTheKey := by
  rintro u code down op (⟨rfl, rfl⟩ | ⟨rfl, rfl⟩)
  · refine ⟨?_, fun hcode => dif_neg (Nat.not_le.2 hcode)⟩
    rintro k rfl
    exact ⟨_, perform_setKeyDown k, keyEvent_spec u.machine k true⟩
  · refine ⟨?_, fun hcode => dif_neg (Nat.not_le.2 hcode)⟩
    rintro k rfl
    exact ⟨_, perform_setKeyUp k, keyEvent_spec u.machine k false⟩

/-- ST is above 0 exactly when it is not 0 (60_exceptions.md R138). -/
theorem isSoundActive_eq (s : State) : isSoundActive s = decide (s.st ≠ 0) := by
  rw [Bool.eq_iff_iff, isSoundActive_iff, decide_eq_true_iff, Nat.pos_iff_ne_zero]
  exact not_congr (BitVec.toNat_inj (y := (0 : Byte)))

/-- Settles O53: the reads answer from the session and leave it, and clearRedraw() sets one item. -/
theorem readsChangeNothing : Obligations.ReadsChangeNothing := by
  intro u
  have hreads : ∀ op ∈ [HostOp.readDisplay, .isSoundActive, .readRedraw, .readState, .readErr],
      u.perform op = .next u := by
    simp [Session.perform]
  exact ⟨hreads, rfl, congrArg Reply.level (isSoundActive_eq u.machine), rfl, rfl, rfl,
    _, rfl, rfl, Unchanged.setRedraw u.machine false⟩

/-! ## Reset and load -/

/-- Settles O54: each item is read off the reset state; memory lists nothing, so each byte is its reset contents. -/
theorem resetSetsEveryItem : Obligations.ResetSetsEveryItem := by
  rintro s t rfl
  refine ⟨fun r => ?v, rfl, rfl, rfl, fun k => ?stack, rfl, rfl, Display.cell_clear, fun k => ?keys, fun a _ => rfl,
    rfl, rfl, rfl, rfl, rfl, rfl⟩
  case v => simp [State.getV, resetMachine, State.resetWith]
  case stack => simp [resetMachine, State.resetWith]
  case keys => simp [State.keyDown, resetMachine, State.resetWith]

/-- A load of an image that fits changes memory, PC and I only. -/
theorem Unchanged.loadProgram {s : State} {image : List Byte} (h : ImageWellFormed image) :
    Unchanged [.memory, .pc, .i] [] s (loadProgram s image) := by
  rw [loadProgram_of_fits s h, copyImage_eq]
  exact ((Unchanged.setMem s _).mono (by simp) (by simp)).trans
    (((Unchanged.setPC _ _).mono (by simp) (by simp)).trans ((Unchanged.setI _ _).mono (by simp) (by simp)))

/-- The bytes after a load of an image that fits. -/
theorem readByte_loadProgram {s : State} {image : List Byte} (h : ImageWellFormed image) (hw : Memory.wf s.cfg s.mem) :
    (∀ (j : Nat) (hj : j < image.length), (loadProgram s image).readByte (programBase + j) = image[j]) ∧
      ∀ a, (a < programBase ∨ programBase + image.length ≤ a) → (loadProgram s image).readByte a = s.readByte a := by
  obtain ⟨-, -, hcopied, hframe⟩ := copyImage_spec (s := s) (programBase_add_length_le h) hw
  rw [loadProgram_of_fits s h]
  exact ⟨hcopied, hframe⟩

theorem loadProgram_pc {s : State} {image : List Byte} (h : ImageWellFormed image) :
    (loadProgram s image).pc = 0x200 := by
  rw [loadProgram_of_fits s h]
  rfl

theorem loadProgram_i {s : State} {image : List Byte} (h : ImageWellFormed image) : (loadProgram s image).i = 0 := by
  rw [loadProgram_of_fits s h]
  rfl

/-- Settles O55. -/
theorem loadProgramCopiesTheImage : Obligations.LoadProgramCopiesTheImage := by
  rintro s t image hw rfl
  constructor
  · intro hfit
    obtain ⟨hcopied, hframe⟩ := readByte_loadProgram hfit hw
    exact ⟨if_pos hfit, hcopied, hframe, loadProgram_pc hfit, loadProgram_i hfit, Unchanged.loadProgram hfit⟩
  · intro hlong
    have hfit : ¬ ImageWellFormed image := Nat.not_le.2 hlong
    exact ⟨if_neg hfit, loadProgram_of_not_fits s hfit⟩

/-- Settles O57: the load keeps the reset value of every item but memory, PC and I, and with it the invariant. -/
theorem bootLeavesTheLaunchState : Obligations.BootLeavesTheLaunchState := by
  intro v image hfit hcfg
  obtain ⟨hv, -, -, hsp, -, hdt, hst, hcells, -, -, hstate, -⟩ := resetSetsEveryItem v.machine _ rfl
  have hinv : (resetMachine v.machine).Inv := State.Inv.resetWith hcfg _
  have hload : (loadProgram (resetMachine v.machine) image).Inv := hinv.loadProgram image
  have hu := Unchanged.loadProgram (s := resetMachine v.machine) hfit
  refine ⟨loadProgram (resetMachine v.machine) image, rfl, ?_, loadProgram_pc hfit, ?_, loadProgram_i hfit, ?_, ?_, ?_, ?_,
    hload.glyphs, (readByte_loadProgram hfit hinv.mem).1, hu.cfg, hload⟩
  · exact (hu.state (by simp)).trans hstate
  · exact fun r => (hu.v r (by simp)).trans (hv r)
  · exact (hu.sp (by simp)).trans hsp
  · exact (hu.dt (by simp)).trans hdt
  · exact (hu.st (by simp)).trans hst
  · rw [hu.display (by simp)]
    exact hcells

end Sys2Proof.Machine
end

section
/-! Runs: the end in error, the permission to load, and finite beginnings of infinite runs (40_cycle.md R78,
70_reset_and_hazards.md R152, R155). -/

namespace Sys2Proof.Machine

/-! ## HALTED and the end in error -/

theorem loadProgram_halted {s : State} (hs : s.state = .halted) (image : List Byte) :
    (loadProgram s image).state = .halted ∧ (s.err ≠ none → (loadProgram s image).err ≠ none) := by
  by_cases hfit : ImageWellFormed image
  · have hu := Unchanged.loadProgram (s := s) hfit
    exact ⟨(hu.state (by simp)).trans hs, fun he => by rwa [hu.err (by simp)]⟩
  · rw [loadProgram_of_not_fits s hfit]
    exact ⟨rfl, fun _ => by simp⟩

/-- No operation but reset leaves HALTED, or clears the error record there (40_cycle.md R78). -/
theorem perform_halted {u u' : Session} {op : HostOp} (hs : u.machine.state = .halted) (hop : op ≠ .reset)
    (h : u.perform op = .next u') :
    u'.machine.state = .halted ∧ (u.machine.err ≠ none → u'.machine.err ≠ none) := by
  cases op with
  | reset => exact absurd rfl hop
  | loadProgram image =>
    simp only [Session.perform] at h
    split at h
    · cases h
      exact loadProgram_halted hs image
    · cases h
  | step =>
    rw [Session.perform_step (step_of_halted hs)] at h
    cases h
    exact ⟨hs, id⟩
  | setKeyDown code | setKeyUp code =>
    simp only [Session.perform] at h
    split at h
    · cases h
      exact ⟨hs, id⟩
    · cases h
  | tick | clearRedraw | readDisplay | isSoundActive | readRedraw | readState | readErr =>
    cases h
    exact ⟨hs, id⟩

/-- Settles O9. -/
theorem haltedIsTerminal : Obligations.HaltedIsTerminal :=
  ⟨fun _ hs => ⟨step_of_halted hs, stepResult_of_halted hs⟩, fun _ _ _ hs hop h => (perform_halted hs hop h).1⟩

/-- Settles O59: every operation but reset keeps the end in error, so every run without a reset does. -/
theorem endInErrorLastsUntilReset : Obligations.EndInErrorLastsUntilReset := by
  have hkeep : ∀ (u u' : Session) (op : HostOp), op ≠ .reset → EndedInError u.machine → u.perform op = .next u' →
      EndedInError u'.machine := by
    rintro u u' op hop ⟨hs, he⟩ h
    obtain ⟨hs', he'⟩ := perform_halted hs hop h
    exact ⟨hs', he' he⟩
  constructor
  · intro u u' ops hops hu hrun
    exact Session.run_induction hkeep hops hu hrun
  · intro u ops n m hrun hnm hops hu
    exact Session.runsForever_induction hkeep hrun hnm hops hu

/-! ## The permission to load -/

/-- An operation that uses up the permission to load (70_reset_and_hazards.md R152). -/
def UsesUpLoad (op : HostOp) : Prop := op = .step ∨ ∃ image, op = .loadProgram image

/-- Without a reset, a load that is not legal does not become so. -/
theorem not_loadable_of_run {u u' : Session} {ops : List HostOp} (hops : ∀ op ∈ ops, op ≠ .reset)
    (hu : u.loadable = false) (h : u.run ops = .next u') : u'.loadable = false := by
  refine Session.run_induction (P := fun u => u.loadable = false) ?_ hops hu h
  intro v v' op hop hv hperform
  rcases Session.perform_loadable hperform hop with ⟨-, hv'⟩ | ⟨-, hv'⟩
  · exact hv'
  · rw [hv', hv]

/-- Without a reset, no load is legal after an operation that uses up the permission. -/
theorem not_loadable_of_usesUpLoad {u u' : Session} {ops : List HostOp} (hops : ∀ op ∈ ops, op ≠ .reset)
    (hused : ∃ op ∈ ops, UsesUpLoad op) (h : u.run ops = .next u') : u'.loadable = false := by
  induction ops generalizing u with
  | nil => simp at hused
  | cons op ops ih =>
    obtain ⟨v, hv, hrun⟩ := Session.run_cons h
    rw [List.forall_mem_cons] at hops
    obtain ⟨hop, hrest⟩ := hops
    rcases Session.perform_loadable hv hop with ⟨-, hfalse⟩ | ⟨hnot, -⟩
    · exact not_loadable_of_run hrest hfalse hrun
    · have hlater : ∃ op' ∈ ops, UsesUpLoad op' := by
        obtain ⟨op', hmem, huses⟩ := hused
        rcases List.mem_cons.1 hmem with rfl | hmem
        · exact absurd huses hnot
        · exact ⟨op', hmem, huses⟩
      exact ih hrest hlater hrun

/-- Settles O56. -/
theorem loadOutOfOrderHasNoMeaning : Obligations.LoadOutOfOrderHasNoMeaning := by
  intro u u' ops image hops hused h
  have hloadable : u'.loadable = false := not_loadable_of_usesUpLoad hops hused h
  simp [Session.perform, hloadable]

/-! ## Infinite runs -/

/-- An operation that is always legal answers a next session. -/
theorem exists_perform_of_alwaysLegal {op : HostOp} (h : AlwaysLegal op) (u : Session) :
    ∃ u', u.perform op = .next u' := by
  cases op with
  | loadProgram image => exact absurd h id
  | step =>
    obtain ⟨t, ht⟩ := stepAlwaysAnswersANextState u.machine
    exact ⟨_, Session.perform_step ht⟩
  | setKeyDown code => exact ⟨_, dif_pos h⟩
  | setKeyUp code => exact ⟨_, dif_pos h⟩
  | reset | tick | clearRedraw | readDisplay | isSoundActive | readRedraw | readState | readErr => exact ⟨_, rfl⟩

/-- The session after an operation, and the same session where the operation has no meaning. -/
def Session.afterOp (u : Session) (op : HostOp) : Session :=
  match u.perform op with
  | .next u' => u'
  | .fault _ => u
  | .refused _ => u

theorem Session.perform_eq_afterOp {op : HostOp} (h : AlwaysLegal op) (u : Session) :
    u.perform op = .next (u.afterOp op) := by
  obtain ⟨u', hu'⟩ := exists_perform_of_alwaysLegal h u
  simp only [Session.afterOp, hu']

/-- The sessions of an infinite sequence of operations from `u₀`. -/
def Session.sessions (u₀ : Session) (ops : Nat → HostOp) : Nat → Session
  | 0 => u₀
  | n + 1 => (Session.sessions u₀ ops n).afterOp (ops n)

/-- The first `n` operations of an infinite run lead to its session `n` (70_reset_and_hazards.md R155). -/
theorem Session.run_firstOps {u : Nat → Session} {ops : Nat → HostOp} (h : Session.RunsForever u ops) (n : Nat) :
    (u 0).run (firstOps ops n) = .next (u n) := by
  induction n with
  | zero => rfl
  | succ n ih =>
    rw [firstOps_succ, Session.run_append ih]
    simp only [Session.run, h n]

/-- Settles O58: an always legal operation can always be performed, so its sessions can be listed for ever. -/
theorem runsNeedNotEnd : Obligations.RunsNeedNotEnd := by
  constructor
  · intro u₀ ops hlaunched hlegal
    have hforever : Session.RunsForever (u₀.sessions ops) ops := fun n => Session.perform_eq_afterOp (hlegal n) _
    exact ⟨u₀.sessions ops, rfl, hlaunched, hforever⟩
  · rintro u ops ⟨hlaunched, hforever⟩ n
    exact ⟨hlaunched, Session.run_firstOps hforever n⟩

end Sys2Proof.Machine
end
